-- ==== Sys2Proof/Word.lean ====
section
/-! DEFINITION. The machine's plain value types (spec 00_scope.md R6, R8, R9). Every value of the block is unsigned. -/

namespace Sys2Proof

/-- A `u8`: a general register, a timer, a byte of memory, the field `kk` (R8, R13). -/
abbrev Byte := BitVec 8

/-- A `u16`: PC, I, a stack entry, an instruction word (R8, R16 to R18). -/
abbrev Word := BitVec 16

/-- A `u12`: the address field `nnn` (R8, R52). -/
abbrev Addr12 := BitVec 12

/-- The number of a general register, V0 to VF (R9, R13). -/
abbrev Reg := Fin 16

/-- A hex key code 0x0 to 0xF: the key port is 4 bits wide (R23, R130). -/
abbrev Key := BitVec 4

/-- VF, the register that is also the flag (R9, R14). -/
abbrev vF : Reg := 15

end Sys2Proof
end

