-- ==== Sys2Proof/Syntax.lean ====
section
/-! DEFINITION. The 35 instructions, one constructor per row of spec/opcode_table.json (30_encoding.md R55, R56, R60).
A field is what the spec's operand list of that instruction names: `x`, `y` register numbers, `kk` a byte, `nnn` a
12-bit address, `n` a count 0..15. SHR and SHL have no `y`: it is ignored (R88, R90). -/

namespace Sys2Proof

inductive Instr where
  /-- 00E0 `CLS`, R104. -/
  | cls
  /-- 00EE `RET`, R72. -/
  | ret
  /-- 0nnn `SYS nnn`, R69. -/
  | sys (nnn : Addr12)
  /-- 1nnn `JP nnn`, R70. -/
  | jp (nnn : Addr12)
  /-- 2nnn `CALL nnn`, R71. -/
  | call (nnn : Addr12)
  /-- 3xkk `SE Vx, kk`, R74. -/
  | seImm (x : Reg) (kk : Byte)
  /-- 4xkk `SNE Vx, kk`, R75. -/
  | sneImm (x : Reg) (kk : Byte)
  /-- 5xy0 `SE Vx, Vy`, R76. -/
  | seReg (x y : Reg)
  /-- 6xkk `LD Vx, kk`, R79. -/
  | ldImm (x : Reg) (kk : Byte)
  /-- 7xkk `ADD Vx, kk`, R80. -/
  | addImm (x : Reg) (kk : Byte)
  /-- 8xy0 `LD Vx, Vy`, R82. -/
  | ldReg (x y : Reg)
  /-- 8xy1 `OR Vx, Vy`, R83. -/
  | orReg (x y : Reg)
  /-- 8xy2 `AND Vx, Vy`, R84. -/
  | andReg (x y : Reg)
  /-- 8xy3 `XOR Vx, Vy`, R85. -/
  | xorReg (x y : Reg)
  /-- 8xy4 `ADD Vx, Vy`, R86. -/
  | addReg (x y : Reg)
  /-- 8xy5 `SUB Vx, Vy`, R87. -/
  | subReg (x y : Reg)
  /-- 8xy6 `SHR Vx`, R88. -/
  | shr (x : Reg)
  /-- 8xy7 `SUBN Vx, Vy`, R89. -/
  | subnReg (x y : Reg)
  /-- 8xyE `SHL Vx`, R90. -/
  | shl (x : Reg)
  /-- 9xy0 `SNE Vx, Vy`, R77. -/
  | sneReg (x y : Reg)
  /-- Annn `LD I, nnn`, R94. -/
  | ldI (nnn : Addr12)
  /-- Bnnn `JP V0, nnn`, R73. -/
  | jpV0 (nnn : Addr12)
  /-- Cxkk `RND Vx, kk`, R91. -/
  | rnd (x : Reg) (kk : Byte)
  /-- Dxyn `DRW Vx, Vy, n`, R107. -/
  | drw (x y : Reg) (n : Fin 16)
  /-- Ex9E `SKP Vx`, R110. -/
  | skp (x : Reg)
  /-- ExA1 `SKNP Vx`, R111. -/
  | sknp (x : Reg)
  /-- Fx07 `LD Vx, DT`, R113. -/
  | ldVxDT (x : Reg)
  /-- Fx0A `LD Vx, K`, R112. -/
  | ldVxK (x : Reg)
  /-- Fx15 `LD DT, Vx`, R114. -/
  | ldDTVx (x : Reg)
  /-- Fx18 `LD ST, Vx`, R115. -/
  | ldSTVx (x : Reg)
  /-- Fx1E `ADD I, Vx`, R95. -/
  | addIVx (x : Reg)
  /-- Fx29 `LD F, Vx`, R96. -/
  | ldFVx (x : Reg)
  /-- Fx33 `LD B, Vx`, R97. -/
  | ldBVx (x : Reg)
  /-- Fx55 `LD [I], Vx`, R98. -/
  | ldMemVx (x : Reg)
  /-- Fx65 `LD Vx, [I]`, R99. -/
  | ldVxMem (x : Reg)
  deriving DecidableEq, Repr

end Sys2Proof
end

