-- ==== Sys2Proof/WellFormed.lean ====
section
/-! DEFINITION. Which terms of `Instr` are instructions of the block. The field types already bound every field, so
one check is left: the two words 00E0 and 00EE are CLS and RET and never SYS (30_encoding.md R55, R58, decision D15). -/

namespace Sys2Proof

/-- The address field of a SYS: any 12 bits but those of the words 00E0 (CLS) and 00EE (RET) (R55, R69). -/
def sysFieldOk (nnn : Addr12) : Bool := nnn != 0x0E0 && nnn != 0x0EE

/-- The instruction is one the decoder can answer. -/
def Instr.wf : Instr → Bool
  | .cls => true
  | .ret => true
  | .sys nnn => sysFieldOk nnn
  | .jp _ => true
  | .call _ => true
  | .seImm _ _ => true
  | .sneImm _ _ => true
  | .seReg _ _ => true
  | .ldImm _ _ => true
  | .addImm _ _ => true
  | .ldReg _ _ => true
  | .orReg _ _ => true
  | .andReg _ _ => true
  | .xorReg _ _ => true
  | .addReg _ _ => true
  | .subReg _ _ => true
  | .shr _ => true
  | .subnReg _ _ => true
  | .shl _ => true
  | .sneReg _ _ => true
  | .ldI _ => true
  | .jpV0 _ => true
  | .rnd _ _ => true
  | .drw _ _ _ => true
  | .skp _ => true
  | .sknp _ => true
  | .ldVxDT _ => true
  | .ldVxK _ => true
  | .ldDTVx _ => true
  | .ldSTVx _ => true
  | .addIVx _ => true
  | .ldFVx _ => true
  | .ldBVx _ => true
  | .ldMemVx _ => true
  | .ldVxMem _ => true

end Sys2Proof
end

