-- ==== Sys2Proof/Decode.lean ====
section
/-! DEFINITION. The decoder (30_encoding.md R50 to R58), total on every word and on every list of bytes, and after it the
encoder, both written from the formats of R53 and the tree of R55. -/

namespace Sys2Proof

/-- Why bytes are no instruction. -/
inductive DecodeError where
  /-- The word is one of the illegal encodings of R57. -/
  | illegal (w : Word)
  /-- There are fewer than the two bytes of an instruction (R50). -/
  | truncated
  deriving DecidableEq, Repr

/-- The field `w[lo+width-1 : lo]` as a natural (R8, R52). -/
def bitField (w : Word) (lo width : Nat) : Nat := w.toNat / 2 ^ lo % 2 ^ width

/-- `o1 = w[15:12]`, the major opcode (R52). -/
def fieldO1 (w : Word) : Nat := bitField w 12 4

/-- `w[3:0]`, the minor opcode of families 5, 8 and 9 (R52). -/
def fieldLow4 (w : Word) : Nat := bitField w 0 4

/-- `w[7:0]`, the minor opcode of families E and F (R52). -/
def fieldLow8 (w : Word) : Nat := bitField w 0 8

/-- `x = w[11:8]` (R52). -/
def fieldX (w : Word) : Reg := Fin.ofNat 16 (bitField w 8 4)

/-- `y = w[7:4]` (R52). -/
def fieldY (w : Word) : Reg := Fin.ofNat 16 (bitField w 4 4)

/-- `n = w[3:0]`, the sprite height (R52). -/
def fieldN (w : Word) : Fin 16 := Fin.ofNat 16 (bitField w 0 4)

/-- `kk = w[7:0]` (R52). -/
def fieldKK (w : Word) : Byte := BitVec.ofNat 8 (bitField w 0 8)

/-- `nnn = w[11:0]` (R52). -/
def fieldNNN (w : Word) : Addr12 := BitVec.ofNat 12 (bitField w 0 12)

/-- Family 0 (R55): the two fixed words first, every other word is SYS. -/
def decodeFamily0 (w : Word) : Except DecodeError Instr :=
  if w = 0x00E0 then .ok .cls
  else if w = 0x00EE then .ok .ret
  else .ok (.sys (fieldNNN w))

/-- Family 8, the ALU block (R55, R81). -/
def decodeFamily8 (w : Word) : Except DecodeError Instr :=
  match fieldLow4 w with
  | 0x0 => .ok (.ldReg (fieldX w) (fieldY w))
  | 0x1 => .ok (.orReg (fieldX w) (fieldY w))
  | 0x2 => .ok (.andReg (fieldX w) (fieldY w))
  | 0x3 => .ok (.xorReg (fieldX w) (fieldY w))
  | 0x4 => .ok (.addReg (fieldX w) (fieldY w))
  | 0x5 => .ok (.subReg (fieldX w) (fieldY w))
  | 0x6 => .ok (.shr (fieldX w))
  | 0x7 => .ok (.subnReg (fieldX w) (fieldY w))
  | 0xE => .ok (.shl (fieldX w))
  | _ => .error (.illegal w)

/-- Family E, the key tests (R55). -/
def decodeFamilyE (w : Word) : Except DecodeError Instr :=
  match fieldLow8 w with
  | 0x9E => .ok (.skp (fieldX w))
  | 0xA1 => .ok (.sknp (fieldX w))
  | _ => .error (.illegal w)

/-- Family F (R55). -/
def decodeFamilyF (w : Word) : Except DecodeError Instr :=
  match fieldLow8 w with
  | 0x07 => .ok (.ldVxDT (fieldX w))
  | 0x0A => .ok (.ldVxK (fieldX w))
  | 0x15 => .ok (.ldDTVx (fieldX w))
  | 0x18 => .ok (.ldSTVx (fieldX w))
  | 0x1E => .ok (.addIVx (fieldX w))
  | 0x29 => .ok (.ldFVx (fieldX w))
  | 0x33 => .ok (.ldBVx (fieldX w))
  | 0x55 => .ok (.ldMemVx (fieldX w))
  | 0x65 => .ok (.ldVxMem (fieldX w))
  | _ => .error (.illegal w)

/-- `Decode(w)` (R55): one of the 35 instructions, or the verdict illegal, by name. -/
def decodeWord (w : Word) : Except DecodeError Instr :=
  match fieldO1 w with
  | 0x0 => decodeFamily0 w
  | 0x1 => .ok (.jp (fieldNNN w))
  | 0x2 => .ok (.call (fieldNNN w))
  | 0x3 => .ok (.seImm (fieldX w) (fieldKK w))
  | 0x4 => .ok (.sneImm (fieldX w) (fieldKK w))
  | 0x5 => if fieldLow4 w = 0 then .ok (.seReg (fieldX w) (fieldY w)) else .error (.illegal w)
  | 0x6 => .ok (.ldImm (fieldX w) (fieldKK w))
  | 0x7 => .ok (.addImm (fieldX w) (fieldKK w))
  | 0x8 => decodeFamily8 w
  | 0x9 => if fieldLow4 w = 0 then .ok (.sneReg (fieldX w) (fieldY w)) else .error (.illegal w)
  | 0xA => .ok (.ldI (fieldNNN w))
  | 0xB => .ok (.jpV0 (fieldNNN w))
  | 0xC => .ok (.rnd (fieldX w) (fieldKK w))
  | 0xD => .ok (.drw (fieldX w) (fieldY w) (fieldN w))
  | 0xE => decodeFamilyE w
  | 0xF => decodeFamilyF w
  | _ => .error (.illegal w)   -- no word comes here: o1 has 4 bits

/-- `hi ++ lo`: two bytes as a big-endian word, the byte of the lower address in bits 15..8 (R41, R51). -/
def wordOfBytes (hi lo : Byte) : Word := BitVec.ofNat 16 (hi.toNat * 256 + lo.toNat)

/-- The byte a word has at the lower address: bits 15..8 (R41). -/
def hiByte (w : Word) : Byte := BitVec.ofNat 8 (w.toNat / 256)

/-- The byte a word has at the higher address: bits 7..0 (R41). -/
def loByte (w : Word) : Byte := BitVec.ofNat 8 (w.toNat % 256)

/-- Decode the first instruction of a list of bytes, and the bytes after it (R50, R51). -/
def decodeBytes : List Byte → Except DecodeError (Instr × List Byte)
  | hi :: lo :: rest =>
    match decodeWord (wordOfBytes hi lo) with
    | .ok i => .ok (i, rest)
    | .error e => .error e
  | _ => .error .truncated

/-- What the decoder reads from an instruction whose bits are `w`, numbered as spec/opcode_table.json numbers them: an
instruction is one word, bit 0 its least significant bit, stored big-endian; the bits above `nbits` are 0. -/
def decodeTableWord (nbits w : Nat) : Option Instr :=
  let word : Word := BitVec.ofNat 16 (w % 2 ^ nbits)
  match decodeBytes [hiByte word, loByte word] with
  | .ok (i, _) => some i
  | .error _ => none

/-! ## The encoder -/

/-- Format NNN (R53): `o1(4) nnn(12)`. -/
def encodeNNN (o1 : Nat) (nnn : Addr12) : Word := BitVec.ofNat 16 (o1 * 4096 + nnn.toNat)

/-- Format XKK (R53): `o1(4) x(4) kk(8)`. -/
def encodeXKK (o1 : Nat) (x : Reg) (kk : Byte) : Word := BitVec.ofNat 16 (o1 * 4096 + x.val * 256 + kk.toNat)

/-- Formats XYF and XYN (R53): `o1(4) x(4) y(4) f(4)`. -/
def encodeXYF (o1 : Nat) (x y : Reg) (f : Nat) : Word := BitVec.ofNat 16 (o1 * 4096 + x.val * 256 + y.val * 16 + f)

/-- Format XFF (R53): `o1(4) x(4) ff(8)`. -/
def encodeXFF (o1 : Nat) (x : Reg) (ff : Nat) : Word := BitVec.ofNat 16 (o1 * 4096 + x.val * 256 + ff)

/-- The word of an instruction (R53, R60). SHR and SHL get `y = 0`: every `y` is the same instruction (R88, R90); a
DESIGN CHOICE, safe (notes/assumptions/13.md). -/
def encode : Instr → Word
  | .cls => 0x00E0
  | .ret => 0x00EE
  | .sys nnn => encodeNNN 0x0 nnn
  | .jp nnn => encodeNNN 0x1 nnn
  | .call nnn => encodeNNN 0x2 nnn
  | .seImm x kk => encodeXKK 0x3 x kk
  | .sneImm x kk => encodeXKK 0x4 x kk
  | .seReg x y => encodeXYF 0x5 x y 0x0
  | .ldImm x kk => encodeXKK 0x6 x kk
  | .addImm x kk => encodeXKK 0x7 x kk
  | .ldReg x y => encodeXYF 0x8 x y 0x0
  | .orReg x y => encodeXYF 0x8 x y 0x1
  | .andReg x y => encodeXYF 0x8 x y 0x2
  | .xorReg x y => encodeXYF 0x8 x y 0x3
  | .addReg x y => encodeXYF 0x8 x y 0x4
  | .subReg x y => encodeXYF 0x8 x y 0x5
  | .shr x => encodeXYF 0x8 x 0 0x6
  | .subnReg x y => encodeXYF 0x8 x y 0x7
  | .shl x => encodeXYF 0x8 x 0 0xE
  | .sneReg x y => encodeXYF 0x9 x y 0x0
  | .ldI nnn => encodeNNN 0xA nnn
  | .jpV0 nnn => encodeNNN 0xB nnn
  | .rnd x kk => encodeXKK 0xC x kk
  | .drw x y n => encodeXYF 0xD x y n.val
  | .skp x => encodeXFF 0xE x 0x9E
  | .sknp x => encodeXFF 0xE x 0xA1
  | .ldVxDT x => encodeXFF 0xF x 0x07
  | .ldVxK x => encodeXFF 0xF x 0x0A
  | .ldDTVx x => encodeXFF 0xF x 0x15
  | .ldSTVx x => encodeXFF 0xF x 0x18
  | .addIVx x => encodeXFF 0xF x 0x1E
  | .ldFVx x => encodeXFF 0xF x 0x29
  | .ldBVx x => encodeXFF 0xF x 0x33
  | .ldMemVx x => encodeXFF 0xF x 0x55
  | .ldVxMem x => encodeXFF 0xF x 0x65

/-- The bytes of an instruction as memory holds them, the lower address first (R41). -/
def encodeBytes (i : Instr) : List Byte := [hiByte (encode i), loByte (encode i)]

/-- The column "match" of the instruction's row in spec/opcode_table.json: the value of the fixed bits. -/
def tableMatch : Instr → Nat
  | .cls => 0x00E0
  | .ret => 0x00EE
  | .sys _ => 0x0000
  | .jp _ => 0x1000
  | .call _ => 0x2000
  | .seImm _ _ => 0x3000
  | .sneImm _ _ => 0x4000
  | .seReg _ _ => 0x5000
  | .ldImm _ _ => 0x6000
  | .addImm _ _ => 0x7000
  | .ldReg _ _ => 0x8000
  | .orReg _ _ => 0x8001
  | .andReg _ _ => 0x8002
  | .xorReg _ _ => 0x8003
  | .addReg _ _ => 0x8004
  | .subReg _ _ => 0x8005
  | .shr _ => 0x8006
  | .subnReg _ _ => 0x8007
  | .shl _ => 0x800E
  | .sneReg _ _ => 0x9000
  | .ldI _ => 0xA000
  | .jpV0 _ => 0xB000
  | .rnd _ _ => 0xC000
  | .drw _ _ _ => 0xD000
  | .skp _ => 0xE09E
  | .sknp _ => 0xE0A1
  | .ldVxDT _ => 0xF007
  | .ldVxK _ => 0xF00A
  | .ldDTVx _ => 0xF015
  | .ldSTVx _ => 0xF018
  | .addIVx _ => 0xF01E
  | .ldFVx _ => 0xF029
  | .ldBVx _ => 0xF033
  | .ldMemVx _ => 0xF055
  | .ldVxMem _ => 0xF065

/-- The column "mask" of the instruction's row in spec/opcode_table.json: which bits are fixed. -/
def tableMask : Instr → Nat
  | .cls => 0xFFFF
  | .ret => 0xFFFF
  | .sys _ => 0xF000
  | .jp _ => 0xF000
  | .call _ => 0xF000
  | .seImm _ _ => 0xF000
  | .sneImm _ _ => 0xF000
  | .seReg _ _ => 0xF00F
  | .ldImm _ _ => 0xF000
  | .addImm _ _ => 0xF000
  | .ldReg _ _ => 0xF00F
  | .orReg _ _ => 0xF00F
  | .andReg _ _ => 0xF00F
  | .xorReg _ _ => 0xF00F
  | .addReg _ _ => 0xF00F
  | .subReg _ _ => 0xF00F
  | .shr _ => 0xF00F
  | .subnReg _ _ => 0xF00F
  | .shl _ => 0xF00F
  | .sneReg _ _ => 0xF00F
  | .ldI _ => 0xF000
  | .jpV0 _ => 0xF000
  | .rnd _ _ => 0xF000
  | .drw _ _ _ => 0xF000
  | .skp _ => 0xF0FF
  | .sknp _ => 0xF0FF
  | .ldVxDT _ => 0xF0FF
  | .ldVxK _ => 0xF0FF
  | .ldDTVx _ => 0xF0FF
  | .ldSTVx _ => 0xF0FF
  | .addIVx _ => 0xF0FF
  | .ldFVx _ => 0xF0FF
  | .ldBVx _ => 0xF0FF
  | .ldMemVx _ => 0xF0FF
  | .ldVxMem _ => 0xF0FF

end Sys2Proof
end

