-- ==== Sys2Proof/Config.lean ====
section
/-! DEFINITION. What an implementation fixes (00_scope.md R6, R7) and the free values of the model. A parameter the spec
gives this hardware a value for is written out; a parameter it leaves OPEN is an opaque constant, so that no proof can
see its value; the random source is an opaque function of a plain counter (60_exceptions.md R134). -/

namespace Sys2Proof

/-- `ADDR_POLICY` (R7, R36, decision D1): what an address at or above 4096 does. -/
inductive AddrPolicy where
  /-- reduced modulo 4096: this hardware's value. -/
  | wrap
  /-- raises BadAddress: the parameter's other value (R121). -/
  | fault
  deriving DecidableEq, Repr

/-- `KEY_MODE` (R7, R109, decision D10): what Ex9E and ExA1 test. -/
inductive KeyMode where
  /-- the pending key events, which the test drains: this hardware's value. -/
  | queue
  /-- the mask of held keys: the parameter's other value (R24, R133). -/
  | level
  deriving DecidableEq, Repr

/-- `RESET_RAM` (R7, R147, decision D12): the bytes outside font and image at a reset. -/
inductive ResetRam where
  /-- those bytes keep their values. -/
  | preserve
  /-- those bytes become 0. -/
  | zero
  deriving DecidableEq, Repr, Inhabited

/-- The parameters of R7, fixed for one machine. `LOAD_OFFSET` is an argument of the load operation (R144) and `P` is
`Params.period`. -/
structure Params where
  /-- `IPF`, the instruction budget of a tick (OPEN, at least 1). -/
  ipf : Nat
  /-- `KEYQ_CAP`, the capacity of the key queue. -/
  keyqCap : Nat
  /-- `KEY_MODE`. -/
  keyMode : KeyMode
  /-- `CLOCK_HZ`, clock units per second (OPEN, a positive multiple of 60). -/
  clockHz : Nat
  /-- `ADDR_POLICY`. -/
  addrPolicy : AddrPolicy
  /-- `RESET_RAM` (OPEN). -/
  resetRam : ResetRam
  deriving DecidableEq, Repr

/-- `P`, clock units per timer period (R7). -/
def Params.period (p : Params) : Nat := p.clockHz / 60

/-- The parameters are in the ranges R7 gives. -/
abbrev Params.wf (p : Params) : Prop := 1 ≤ p.ipf ∧ 1 ≤ p.keyqCap ∧ 1 ≤ p.clockHz ∧ p.clockHz % 60 = 0

/-- How far this machine's `IPF` lies above its least value 1: OPEN (R7, decision D16; notes/assumptions/2.md). -/
opaque Config.ipfAboveOne : Nat

/-- How far this machine's timer period `P` lies above its least value 1: OPEN (R7, decision D8; notes/assumptions/2.md). -/
opaque Config.periodAboveOne : Nat

/-- This machine's `RESET_RAM`: OPEN (R7, decision D12; notes/assumptions/2.md). -/
opaque Config.resetRam : ResetRam

/-- The free draw `Rand8()` number `k` (R134): no body, so a claim about it holds for every sequence of draws
(notes/assumptions/4.md). -/
opaque Config.rand8 : Nat → Byte

/-- This hardware's parameters (R7). -/
def Config.hardware : Params where
  ipf := Config.ipfAboveOne + 1
  keyqCap := 16
  keyMode := .queue
  clockHz := 60 * (Config.periodAboveOne + 1)
  addrPolicy := .wrap
  resetRam := Config.resetRam

end Sys2Proof
end

