-- ==== Sys2Proof/Machine/State.lean ====
section
/-! DEFINITION. The machine's state as plain data (10_state.md), the reasons a step can stop, and the state right after
power-on. Every field of the spec's own state comes first; the model's own fields stand last and are named so. -/

namespace Sys2Proof.Machine

/-- Memory as (address, byte) pairs (20_memory.md R32). What an unlisted address reads as is `Mem.unlisted`, the
canonical form is `Mem.wf` (both in Machine/Memory.lean). -/
abbrev Mem := List Host.Cell

/-- A video plane: 32 rows of 64 pixels, row 0 at the top, column 0 at the left (R25, R26, R101). Which index comes
first is not observable (decision D26). -/
abbrev Plane := Vector (Vector Bool 64) 32

/-- The plane with every pixel 0. -/
def Plane.blank : Plane := Vector.replicate 32 (Vector.replicate 64 false)

/-- The five fault kinds of the block (60_exceptions.md R117). -/
inductive FaultKind where
  /-- a load whose image does not fit (R145). -/
  | programTooLarge
  /-- an address at or above 4096, under `ADDR_POLICY = fault` only (R121). -/
  | badAddress
  /-- CALL with SP = 16 (R71). -/
  | stackOverflow
  /-- RET with SP = 0 (R72). -/
  | stackUnderflow
  /-- an illegal word (R57, R122). -/
  | illegalInstruction
  deriving DecidableEq, Repr

/-- The fault record `(kind, pc, opcode)` (R27, R118). -/
structure FaultRecord where
  kind : FaultKind
  pc : Word
  opcode : Option Word
  deriving DecidableEq, Repr

/-- An operation of the host on the block (R135). -/
inductive HostOp where
  /-- `load(image, offset, now)` (70_reset_and_hazards.md R144). -/
  | load (image : List Byte) (offset : Nat) (t : Nat)
  /-- `reset(now)` (R147). -/
  | reset (t : Nat)
  /-- `tick(now, keys, keyDownIn)` (R137): time, keys pushed since the last tick in push order, mask of held keys. -/
  | tick (t : Nat) (keys : List Key) (keyDownIn : BitVec 16)
  deriving DecidableEq, Repr

/-- Where the driver stands in the tick of R137 (the MODEL's own; notes/assumptions/1.md). -/
inductive Phase where
  /-- between two host operations (R136). -/
  | idle
  /-- inside a tick's instruction batch, with at most `left` instruction steps to go (`IPF - count` of R137). -/
  | batch (left : Nat)
  deriving DecidableEq, Repr

/-- The state of the block. -/
structure State where
  /-- V[0] to V[15] (R13); V[15] is VF (R14). -/
  v : Vector Byte 16
  /-- The index register I, 16 bits as stored (R16). -/
  i : Word
  /-- The program counter, 16 bits as stored (R17). -/
  pc : Word
  /-- The call stack, outside memory (R18). -/
  stack : Vector Word 16
  /-- The stack pointer: the number of pushed frames, 0 to 16 (R19). -/
  sp : Fin 17
  /-- The delay timer (R20). -/
  dt : Byte
  /-- The sound timer (R21). -/
  st : Byte
  /-- The last-decrement timestamp of both timers, in clock units (R22). -/
  tLast : Nat
  /-- The key queue Q, oldest first (R23). -/
  queue : List Key
  /-- The held keys, bit k for key k: written and read under `KEY_MODE = level` only (R24). -/
  keyDown : BitVec 16
  /-- The pending video plane, which the CPU writes (R25). -/
  pend : Plane
  /-- The current video plane, which the host sees (R26). -/
  cur : Plane
  /-- The fault status (R27). -/
  fault : Option FaultRecord
  /-- The last accepted program image (R29). -/
  rom : List Byte
  /-- Its load offset (R29). -/
  romOffset : Nat
  /-- The memory M (R32). -/
  mem : Mem
  /-- MODEL's own: the parameters of R7, written by nothing (notes/assumptions/2.md). -/
  params : Params
  /-- MODEL's own: the time `now` of the current host operation, or of the last one between two (R10, R136, R137;
  notes/assumptions/14.md). -/
  now : Nat
  /-- MODEL's own: how many free bytes RND has drawn (R28, R134; notes/assumptions/4.md). -/
  draws : Nat
  /-- MODEL's own: where the driver stands (R137; notes/assumptions/1.md). -/
  phase : Phase
  /-- MODEL's own: the host operations not yet taken, oldest first (R136, R143; notes/assumptions/1.md). -/
  inbox : List HostOp
  deriving DecidableEq, Repr

/-- Why the machine stops. The block's own faults (R117) are state, not stops: see `FaultRecord`. -/
inductive Fault where
  /-- Raised by `State.stepInstruction` when an instruction step is asked of a halted block: "a halted block has no
  instruction step" (R62). `step` never asks for one. Safe: the machine stops where the hardware does nothing. -/
  | halted
  deriving DecidableEq, Repr

/-- Why a step has no meaning. -/
inductive Refusal where
  /-- Raised by an arm of `exec` whose instruction has no meaning in the model yet. No arm raises it: all are modelled.
  Safe. -/
  | notModelled (mnemonic : String)
  /-- Raised by `State.hostLoad` for a load with an offset below 80 or above 4096, which is outside the host's contract:
  "a model refuses such a load (no move)" (R144, I21). Safe. -/
  | loadOffset
  /-- Raised by `State.hostStep` and `State.tick` for a host operation at a time below that of the operation before it,
  which breaks the host's duty of R136: "refuse (outside the host contract)" (I25; notes/assumptions/24.md). Safe. -/
  | timeBackwards
  deriving DecidableEq, Repr

/-- The block right after power-on construction at the host's time `t` (R146, with the values of R31), with parameters
`p`. An empty memory list reads as the font in [0, 80) and as 0 elsewhere. -/
def State.powerOn (p : Params) (t : Nat) : State where
  v := Vector.replicate 16 0
  i := 0
  pc := 0x200
  stack := Vector.replicate 16 0
  sp := 0
  dt := 0
  st := 0
  tLast := t
  queue := []
  keyDown := 0
  pend := Plane.blank
  cur := Plane.blank
  fault := none
  rom := []
  romOffset := 0x200
  mem := []
  params := p
  now := t
  draws := 0
  phase := .idle
  inbox := []

/-- The machine right after reset: power-on of this hardware. The host supplies the time (R31); 0 is a DESIGN CHOICE,
unsafe (notes/assumptions/3.md). -/
def State.reset : State := State.powerOn Config.hardware 0

end Sys2Proof.Machine
end

