-- ==== Sys2Proof/Machine/Memory.lean ====
section
/-! DEFINITION. The byte array M as a canonical list of cells (20_memory.md R32), and the font table (R40). -/

namespace Sys2Proof.Machine

/-- The font table, the 80-byte string of R40 from address 0. -/
def fontTable : List Byte :=
  [0xF0, 0x90, 0x90, 0x90, 0xF0, 0x20, 0x60, 0x20, 0x20, 0x70] ++
  [0xF0, 0x10, 0xF0, 0x80, 0xF0, 0xF0, 0x10, 0xF0, 0x10, 0xF0] ++
  [0x90, 0x90, 0xF0, 0x10, 0x10, 0xF0, 0x80, 0xF0, 0x10, 0xF0] ++
  [0xF0, 0x80, 0xF0, 0x90, 0xF0, 0xF0, 0x10, 0x20, 0x40, 0x40] ++
  [0xF0, 0x90, 0xF0, 0x90, 0xF0, 0xF0, 0x90, 0xF0, 0x10, 0xF0] ++
  [0xF0, 0x90, 0xF0, 0x90, 0x90, 0xE0, 0x90, 0xE0, 0x90, 0xE0] ++
  [0xF0, 0x80, 0x80, 0x80, 0xF0, 0xE0, 0x90, 0x90, 0x90, 0xE0] ++
  [0xF0, 0x80, 0xF0, 0x80, 0xF0, 0xF0, 0x80, 0xF0, 0x80, 0x80]

/-- The size of the font region [0, 80) (R34, R40). -/
def fontSize : Nat := 80

/-- The size of the memory (R6, R32). -/
def memSize : Nat := 4096

/-- What an address that the list does not hold reads as: the font byte in the font region, 0 elsewhere (R40, R146;
notes/assumptions/5.md). -/
def Mem.unlisted (a : Nat) : Byte := fontTable.getD a 0

/-- The byte `M[a]`. -/
def Mem.read : Mem → Nat → Byte
  | [], a => Mem.unlisted a
  | (k, b) :: rest, a => if k = a then b else Mem.read rest a

/-- The cells that one byte at one address needs: none where it is what an unlisted address reads as. -/
def Mem.cells (a : Nat) (v : Byte) : Mem := if v = Mem.unlisted a then [] else [(a, v)]

/-- `M[a] <- v`, keeping the canonical form. -/
def Mem.write : Mem → Nat → Byte → Mem
  | [], a, v => Mem.cells a v
  | (k, b) :: rest, a, v =>
    if k < a then (k, b) :: Mem.write rest a v
    else if k = a then Mem.cells a v ++ rest
    else Mem.cells a v ++ (k, b) :: rest

/-- `M[a + j] <- bytes[j]` for every j, in ascending order: the direct write of load and reset (R144, R147). -/
def Mem.writeAll (m : Mem) (a : Nat) : List Byte → Mem
  | [] => m
  | b :: bs => Mem.writeAll (Mem.write m a b) (a + 1) bs

/-- `M[0..79] <- font table` (R147): no cell below 80 is listed, so those addresses read as the font. -/
def Mem.restoreFont (m : Mem) : Mem := m.filter fun c => fontSize ≤ c.1

/-- `M[80..4095] <- 0` (R147): no cell at or above 80 is listed, so those addresses read as 0. -/
def Mem.clearRam (m : Mem) : Mem := m.filter fun c => c.1 < fontSize

/-- The canonical form: addresses strictly rising and inside the memory, and no cell that an unlisted address would read
the same. -/
abbrev Mem.wf (m : Mem) : Prop :=
  m.Pairwise (fun c d => c.1 < d.1) ∧ ∀ c ∈ m, c.1 < memSize ∧ c.2 ≠ Mem.unlisted c.1

/-- The font region holds the font table (R39, R40). -/
abbrev Mem.fontIntact (m : Mem) : Prop := ∀ a < fontSize, Mem.read m a = Mem.unlisted a

end Sys2Proof.Machine
end

