-- ==== Sys2Proof/Machine/Ops.lean ====
section
/-! DEFINITION. The named operations on registers, stack, PC, planes and key queue that the meanings are written with,
and fault entry, the block's one exception entry (60_exceptions.md R119). Return from a fault is the host's reset
(R124), `State.hostReset` in Machine/Driver.lean. -/

namespace Sys2Proof.Machine

/-- What an instruction, or a step, answers. -/
abbrev Result := Host.Outcome State Fault Refusal

/-- `V[x]` (R9). -/
def State.getV (s : State) (x : Reg) : Byte := s.v.get x

/-- `V[x] <- b` (R9). -/
def State.setV (s : State) (x : Reg) (b : Byte) : State := { s with v := s.v.set x.val b }

/-- `I <- w` (R9, R16). -/
def State.setI (s : State) (w : Word) : State := { s with i := w }

/-! ## Post-actions (00_scope.md R11, 40_control.md R65 to R68) -/

/-- `Next`: `PC <- (PC + 2) mod 2^16` (R65). -/
def State.goNext (s : State) : State := { s with pc := s.pc + 2 }

/-- `Skip`: `PC <- (PC + 4) mod 2^16` (R66). -/
def State.goSkip (s : State) : State := { s with pc := s.pc + 4 }

/-- `Jump(a)`: `PC <- a mod 2^16` for a natural `a` (R67). -/
def State.goJump (s : State) (a : Nat) : State := { s with pc := BitVec.ofNat 16 a }

/-- `Wait`: PC is not written (R68). -/
def State.goWait (s : State) : State := s

/-- `if c then Skip else Next`, the end of every conditional skip (R66, R74 to R77, R110, R111). -/
def State.skipIf (s : State) (c : Bool) : State := if c then s.goSkip else s.goNext

/-! ## Taking a fault -/

/-- `raise Fault(kind)` in a state that holds no write of the faulting instruction: the record `(kind, PC, opcode)` is
stored and nothing else changes (R27, R63, R118, R119). -/
def State.raiseFault (s : State) (kind : FaultKind) (opcode : Option Word) : State :=
  { s with fault := some { kind := kind, pc := s.pc, opcode := opcode } }

/-- The number of a fault kind (R117, decision D18). -/
def FaultKind.code : FaultKind → Nat
  | .programTooLarge => 1
  | .badAddress => 2
  | .stackOverflow => 3
  | .stackUnderflow => 4
  | .illegalInstruction => 5

/-! ## The call stack (R18, R19) -/

/-- `stack[SP] <- w; SP <- SP + 1`, or nothing when all 16 entries are used. -/
def State.push (s : State) (w : Word) : Option State :=
  if h : s.sp.val < 16 then
    some { s with stack := s.stack.set s.sp.val w, sp := ⟨s.sp.val + 1, by omega⟩ }
  else none

/-- `SP <- SP - 1` and the entry `stack[SP]`, which keeps its value, or nothing when SP is 0. -/
def State.pop (s : State) : Option (Word × State) :=
  if h : 0 < s.sp.val then
    some (s.stack[s.sp.val - 1], { s with sp := ⟨s.sp.val - 1, by omega⟩ })
  else none

/-! ## Pixels of a plane (R25, R101) -/

/-- The pixel at column `c`, row `r`; outside the plane there is none, and the answer is off. -/
def Plane.pixel (p : Plane) (c r : Nat) : Bool :=
  if h : r < 32 ∧ c < 64 then (p[r]'h.1)[c]'h.2 else false

/-- `p[c][r] <- p[c][r] XOR 1`; outside the plane nothing changes. -/
def Plane.toggle (p : Plane) (c r : Nat) : Plane :=
  if h : r < 32 ∧ c < 64 then p.set r ((p[r]'h.1).set c (!(p[r]'h.1)[c]'h.2) h.2) h.1 else p

/-! ## The key queue (R130 to R132) -/

/-- `KeyPush(k)` (R130): a full queue first drops its oldest event. -/
def State.keyPush (s : State) (k : Key) : State :=
  { s with queue := (if s.queue.length = s.params.keyqCap then s.queue.drop 1 else s.queue) ++ [k] }

/-- `KeyPop()` (R131): the oldest event, removed; none on an empty queue. -/
def State.keyPop (s : State) : Option (Key × State) :=
  match s.queue with
  | [] => none
  | k :: rest => some (k, { s with queue := rest })

/-- `KeyDrain()` (R132): every pending event, oldest first; the queue becomes empty. -/
def State.keyDrain (s : State) : List Key × State := (s.queue, { s with queue := [] })

/-! ## The random source -/

/-- `Rand8()` (R134): a free byte, a new one at every call. -/
def State.rand8 (s : State) : Byte × State := (Config.rand8 s.draws, { s with draws := s.draws + 1 })

end Sys2Proof.Machine
end

