-- ==== Sys2Proof/Machine/Flags.lean ====
section
/-! DEFINITION. Every flag the block computes: carry, the two strict comparisons, the bits shifted out (41_register_alu.md
R86 to R90, R92). The collision flag comes from the blit (Machine/Display.lean). Each is the byte 0 or 1 that VF takes. -/

namespace Sys2Proof.Machine

/-- A condition as the value of VF. -/
def flagByte (b : Bool) : Byte := if b then 1 else 0

/-- The carry out of bit 7 of an addition (R86). -/
def carryFlag (a b : Byte) : Byte := flagByte (0xFF < a.toNat + b.toNat)

/-- `a > b`, strictly: SUB takes (Vx, Vy) and SUBN takes (Vy, Vx) (R87, R89). -/
def greaterFlag (a b : Byte) : Byte := flagByte (b.toNat < a.toNat)

/-- Bit 0, which SHR shifts out (R88). -/
def lowBitFlag (a : Byte) : Byte := flagByte (a.toNat % 2 = 1)

/-- Bit 7, which SHL shifts out (R90). -/
def highBitFlag (a : Byte) : Byte := flagByte (a.toNat / 128 % 2 = 1)

end Sys2Proof.Machine
end

