-- ==== Sys2Proof/Machine/Operands.lean ====
section
/-! DEFINITION. The operand forms: an address in I or PC plus a small offset, through `EA` (20_memory.md R33, R36), one
byte and a run of bytes read or written there (R37, R38), and the instruction word at PC (30_encoding.md R51). `none`
is BadAddress: it comes only under `ADDR_POLICY = fault`, and the caller then raises the fault in the state before the
instruction, so that no byte of the run was written (R121, decision D23). -/

namespace Sys2Proof.Machine

/-- `EA(a)` (R36) for a natural base-plus-offset address. -/
def effAddr (p : AddrPolicy) (a : Nat) : Option Nat :=
  match p with
  | .wrap => some (a % memSize)
  | .fault => if a < memSize then some a else none

/-- `MemRead(a, 1)` (R37). -/
def State.memRead (s : State) (a : Nat) : Option Byte :=
  match effAddr s.params.addrPolicy a with
  | some e => some (Mem.read s.mem e)
  | none => none

/-- The write of `MemWrite` at an effective address: the font region is write-protected (R38). -/
def State.storeAt (s : State) (e : Nat) (b : Byte) : State :=
  if e < fontSize then s else { s with mem := Mem.write s.mem e b }

/-- `MemWrite(a, 1, b)` (R38). -/
def State.memWrite (s : State) (a : Nat) (b : Byte) : Option State :=
  match effAddr s.params.addrPolicy a with
  | some e => some (s.storeAt e b)
  | none => none

/-- The `n` bytes at `a, a + 1, ..., a + n - 1`, each through `MemRead` (R33). -/
def State.readBytes (s : State) (a : Nat) : Nat → Option (List Byte)
  | 0 => some []
  | n + 1 =>
    match s.memRead a, State.readBytes s (a + 1) n with
    | some b, some bs => some (b :: bs)
    | _, _ => none

/-- `bytes` to `a, a + 1, ...` in ascending order, each through `MemWrite` (R33, R97, R98). -/
def State.writeBytes (s : State) (a : Nat) : List Byte → Option State
  | [] => some s
  | b :: bs =>
    match s.memWrite a b with
    | some s' => State.writeBytes s' (a + 1) bs
    | none => none

/-- `Fetch(PC)` (R51): the byte at PC in bits 15..8, the byte at PC + 1 (a natural sum) in bits 7..0. -/
def State.fetch (s : State) : Option Word :=
  match s.memRead s.pc.toNat, s.memRead (s.pc.toNat + 1) with
  | some hi, some lo => some (wordOfBytes hi lo)
  | _, _ => none

/-- `V[0..x]`, the register run of Fx55 (R98). -/
def State.regsUpTo (s : State) (x : Reg) : List Byte := s.v.toList.take (x.val + 1)

/-- `V[j] <- bytes[0], V[j+1] <- bytes[1], ...`: the register run of Fx65 (R99). -/
def State.setRegsFrom (s : State) (j : Nat) : List Byte → State
  | [] => s
  | b :: bs => if h : j < 16 then State.setRegsFrom (s.setV ⟨j, h⟩ b) (j + 1) bs else s

/-- The three decimal digits of a byte, hundreds first (R97). -/
def bcdDigits (v : Byte) : List Byte :=
  [BitVec.ofNat 8 (v.toNat / 100), BitVec.ofNat 8 (v.toNat / 10 % 10), BitVec.ofNat 8 (v.toNat % 10)]

end Sys2Proof.Machine
end

