-- ==== Sys2Proof/Machine/Alu.lean ====
section
/-! DEFINITION. Register loads, the ALU block and the random load (41_register_alu.md R79 to R91). -/

namespace Sys2Proof.Machine

/-- The end of an instruction that writes one register: `V[x] <- result; Next`. -/
def State.finishReg (s : State) (x : Reg) (result : Byte) : State := (s.setV x result).goNext

/-- The end of an ALU instruction with a flag: `V[15] <- flag; V[x] <- result; Next`, in that order, so that for x = F
the result stays (R81, decision D4). -/
def State.finishFlag (s : State) (x : Reg) (flag result : Byte) : State := (s.setV vF flag).finishReg x result

/-- 6xkk `LD Vx, kk` (R79). -/
def execLdImm (x : Reg) (kk : Byte) (s : State) : Result := .next (s.finishReg x kk)

/-- 7xkk `ADD Vx, kk`: no flag (R80). -/
def execAddImm (x : Reg) (kk : Byte) (s : State) : Result := .next (s.finishReg x (s.getV x + kk))

/-- 8xy0 `LD Vx, Vy` (R82). -/
def execLdReg (x y : Reg) (s : State) : Result := .next (s.finishReg x (s.getV y))

/-- 8xy1 `OR Vx, Vy`: VF unchanged (R83). -/
def execOrReg (x y : Reg) (s : State) : Result := .next (s.finishReg x (s.getV x ||| s.getV y))

/-- 8xy2 `AND Vx, Vy`: VF unchanged (R84). -/
def execAndReg (x y : Reg) (s : State) : Result := .next (s.finishReg x (s.getV x &&& s.getV y))

/-- 8xy3 `XOR Vx, Vy`: VF unchanged (R85). -/
def execXorReg (x y : Reg) (s : State) : Result := .next (s.finishReg x (s.getV x ^^^ s.getV y))

/-- 8xy4 `ADD Vx, Vy`: VF = carry (R86). -/
def execAddReg (x y : Reg) (s : State) : Result :=
  .next (s.finishFlag x (carryFlag (s.getV x) (s.getV y)) (s.getV x + s.getV y))

/-- 8xy5 `SUB Vx, Vy`: VF = 1 iff Vx > Vy (R87). -/
def execSubReg (x y : Reg) (s : State) : Result :=
  .next (s.finishFlag x (greaterFlag (s.getV x) (s.getV y)) (s.getV x - s.getV y))

/-- 8xy6 `SHR Vx`: VF = old bit 0 (R88). -/
def execShr (x : Reg) (s : State) : Result := .next (s.finishFlag x (lowBitFlag (s.getV x)) (s.getV x >>> 1))

/-- 8xy7 `SUBN Vx, Vy`: VF = 1 iff Vy > Vx (R89). -/
def execSubnReg (x y : Reg) (s : State) : Result :=
  .next (s.finishFlag x (greaterFlag (s.getV y) (s.getV x)) (s.getV y - s.getV x))

/-- 8xyE `SHL Vx`: VF = old bit 7 (R90). -/
def execShl (x : Reg) (s : State) : Result := .next (s.finishFlag x (highBitFlag (s.getV x)) (s.getV x <<< 1))

/-- Cxkk `RND Vx, kk`: a free byte AND kk (R91, R134). -/
def execRnd (x : Reg) (kk : Byte) (s : State) : Result :=
  match s.rand8 with
  | (r, s') => .next (s'.finishReg x (r &&& kk))

end Sys2Proof.Machine
end

