-- ==== Sys2Proof/Machine/Control.lean ====
section
/-! DEFINITION. Jumps, call and return, conditional skips (40_control.md R69 to R77). -/

namespace Sys2Proof.Machine

/-- 0nnn `SYS nnn`: `Jump(zext_16(nnn))` (R69). -/
def execSys (nnn : Addr12) (s : State) : Result := .next (s.goJump nnn.toNat)

/-- 1nnn `JP nnn`: `Jump(zext_16(nnn))` (R70). -/
def execJp (nnn : Addr12) (s : State) : Result := .next (s.goJump nnn.toNat)

/-- 2nnn `CALL nnn`: push the address of this CALL, then jump; StackOverflow when SP is 16 at entry (R71). -/
def execCall (nnn : Addr12) (s : State) : Result :=
  match s.push s.pc with
  | some s' => .next (s'.goJump nnn.toNat)
  | none => .next (s.raiseFault .stackOverflow (some (encode (.call nnn))))

/-- 00EE `RET`: pop, then jump to the saved address plus 2; StackUnderflow when SP is 0 at entry (R72). -/
def execRet (s : State) : Result :=
  match s.pop with
  | some (saved, s') => .next (s'.goJump (saved.toNat + 2))
  | none => .next (s.raiseFault .stackUnderflow (some (encode .ret)))

/-- Bnnn `JP V0, nnn`: `Jump(zext_16(nnn) + V[0])` (R73). -/
def execJpV0 (nnn : Addr12) (s : State) : Result := .next (s.goJump (nnn.toNat + (s.getV 0).toNat))

/-- 3xkk `SE Vx, kk` (R74). -/
def execSeImm (x : Reg) (kk : Byte) (s : State) : Result := .next (s.skipIf (s.getV x == kk))

/-- 4xkk `SNE Vx, kk` (R75). -/
def execSneImm (x : Reg) (kk : Byte) (s : State) : Result := .next (s.skipIf (s.getV x != kk))

/-- 5xy0 `SE Vx, Vy` (R76). -/
def execSeReg (x y : Reg) (s : State) : Result := .next (s.skipIf (s.getV x == s.getV y))

/-- 9xy0 `SNE Vx, Vy` (R77). -/
def execSneReg (x y : Reg) (s : State) : Result := .next (s.skipIf (s.getV x != s.getV y))

end Sys2Proof.Machine
end

