-- ==== Sys2Proof/Machine/Display.lean ====
section
/-! DEFINITION. The framebuffer instructions CLS and DRW (43_display.md R101 to R107). -/

namespace Sys2Proof.Machine

/-- One sprite row at plane row `r` from column `ox`, over the bit numbers listed, with the collision so far: bit `b` is
at column `ox + (7 - b)`, and columns at or past 64 are clipped (R103, R105, R106). -/
def Plane.blitBits (p : Plane) (ox r : Nat) (row : Byte) (coll : Bool) : List Nat → Plane × Bool
  | [] => (p, coll)
  | b :: bs =>
    if 64 ≤ ox + (7 - b) then Plane.blitBits p ox r row coll bs
    else if row.getLsbD b then
      Plane.blitBits (p.toggle (ox + (7 - b)) r) ox r row (coll || p.pixel (ox + (7 - b)) r) bs
    else Plane.blitBits p ox r row coll bs

/-- Sprite rows from plane row `r` down; rows at or past 32 are clipped (R105, R106). -/
def Plane.blitRows (p : Plane) (ox r : Nat) (coll : Bool) : List Byte → Plane × Bool
  | [] => (p, coll)
  | row :: rows =>
    if 32 ≤ r then Plane.blitRows p ox (r + 1) coll rows
    else
      match p.blitBits ox r row coll [7, 6, 5, 4, 3, 2, 1, 0] with
      | (p', coll') => Plane.blitRows p' ox (r + 1) coll' rows

/-- `Draw(vx, vy, s)` (R106): the plane after the blit and the collision bit. The origin wraps, the body is clipped
(R105). -/
def Plane.draw (p : Plane) (vx vy : Byte) (sprite : List Byte) : Plane × Bool :=
  p.blitRows (vx.toNat % 64) (vy.toNat % 32) false sprite

/-- 00E0 `CLS`: clear the pending plane (R102, R104). -/
def execCls (s : State) : Result := .next ({ s with pend := Plane.blank } : State).goNext

/-- Dxyn `DRW Vx, Vy, n`: the sprite is read, then drawn, then VF is written (R107). -/
def execDrw (x y : Reg) (n : Fin 16) (s : State) : Result :=
  match s.readBytes s.i.toNat n.val with
  | some sprite =>
    match s.pend.draw (s.getV x) (s.getV y) sprite with
    | (plane, coll) => .next (({ s with pend := plane } : State).setV vF (flagByte coll)).goNext
  | none => .next (s.raiseFault .badAddress (some (encode (.drw x y n))))

end Sys2Proof.Machine
end

