-- ==== Sys2Proof/Machine/IndexMemory.lean ====
section
/-! DEFINITION. The index register and the memory instructions (42_index_memory.md R94 to R99). None of them changes I as
a side effect of an access. -/

namespace Sys2Proof.Machine

/-- Annn `LD I, nnn`: `I <- zext_16(nnn)` (R94). -/
def execLdI (nnn : Addr12) (s : State) : Result := .next (s.setI (nnn.setWidth 16)).goNext

/-- Fx1E `ADD I, Vx`: `I <- (I + V[x]) mod 2^16`, VF not modified (R95). -/
def execAddIVx (x : Reg) (s : State) : Result := .next (s.setI (s.i + (s.getV x).setWidth 16)).goNext

/-- Fx29 `LD F, Vx`: `I <- V[x] * 5`, no mask (R96). -/
def execLdFVx (x : Reg) (s : State) : Result := .next (s.setI (BitVec.ofNat 16 ((s.getV x).toNat * 5))).goNext

/-- Fx33 `LD B, Vx`: the three decimal digits to I, I + 1, I + 2 (R97). -/
def execLdBVx (x : Reg) (s : State) : Result :=
  match s.writeBytes s.i.toNat (bcdDigits (s.getV x)) with
  | some s' => .next s'.goNext
  | none => .next (s.raiseFault .badAddress (some (encode (.ldBVx x))))

/-- Fx55 `LD [I], Vx`: V0..Vx to I, I + 1, ..., I + x (R98). -/
def execLdMemVx (x : Reg) (s : State) : Result :=
  match s.writeBytes s.i.toNat (s.regsUpTo x) with
  | some s' => .next s'.goNext
  | none => .next (s.raiseFault .badAddress (some (encode (.ldMemVx x))))

/-- Fx65 `LD Vx, [I]`: V0..Vx from I, I + 1, ..., I + x (R99). -/
def execLdVxMem (x : Reg) (s : State) : Result :=
  match s.readBytes s.i.toNat (x.val + 1) with
  | some bytes => .next (s.setRegsFrom 0 bytes).goNext
  | none => .next (s.raiseFault .badAddress (some (encode (.ldVxMem x))))

end Sys2Proof.Machine
end

