-- ==== Sys2Proof/Machine/KeypadTimer.lean ====
section
/-! DEFINITION. Keypad and timer instructions (44_keypad_timer.md R109 to R115). -/

namespace Sys2Proof.Machine

/-- `Pressed(v)` (R109): the answer, and the state after it, whose queue is drained in `KEY_MODE = queue`. -/
def State.pressed (s : State) (v : Byte) : Bool × State :=
  match s.params.keyMode with
  | .queue =>
    match s.keyDrain with
    | (events, s') => (events.any fun k => k.toNat == v.toNat, s')
  | .level => (decide (v.toNat < 16) && s.keyDown.getLsbD v.toNat, s)

/-- Ex9E `SKP Vx` (R110). -/
def execSkp (x : Reg) (s : State) : Result :=
  match s.pressed (s.getV x) with
  | (down, s') => .next (s'.skipIf down)

/-- ExA1 `SKNP Vx` (R111). -/
def execSknp (x : Reg) (s : State) : Result :=
  match s.pressed (s.getV x) with
  | (down, s') => .next (s'.skipIf (!down))

/-- Fx0A `LD Vx, K`: the oldest key event, or Wait on an empty queue (R112). -/
def execLdVxK (x : Reg) (s : State) : Result :=
  match s.keyPop with
  | some (k, s') => .next (s'.finishReg x (k.setWidth 8))
  | none => .next s.goWait

/-- Fx07 `LD Vx, DT` (R113). -/
def execLdVxDT (x : Reg) (s : State) : Result := .next (s.finishReg x s.dt)

/-- Fx15 `LD DT, Vx`: `DT <- V[x]; tLast <- now` (R114). -/
def execLdDTVx (x : Reg) (s : State) : Result := .next ({ s with dt := s.getV x, tLast := s.now } : State).goNext

/-- Fx18 `LD ST, Vx`: `ST <- V[x]; tLast <- now` (R115). -/
def execLdSTVx (x : Reg) (s : State) : Result := .next ({ s with st := s.getV x, tLast := s.now } : State).goNext

end Sys2Proof.Machine
end

