-- ==== Sys2Proof/Machine/Driver.lean ====
section
/-! DEFINITION. The instruction step (40_control.md R62), the timer unit, the present, load and reset, and the driver
that sequences them (60_exceptions.md R127 to R139, 70_reset_and_hazards.md R144 to R147). `State.advance` is what one
step of the machine does; `State.tick` is the same tick written as one operation, as R137 writes it. -/

namespace Sys2Proof.Machine

/-! ## One instruction -/

/-- `Step()` (R62): fetch, decode, execute, with the faults in the order of R123. A halted block has no instruction
step. -/
def State.stepInstruction (s : State) : Result :=
  if s.fault.isSome then .fault .halted
  else
    match s.fetch with
    | none => .next (s.raiseFault .badAddress none)
    | some w =>
      match decodeWord w with
      | .error _ => .next (s.raiseFault .illegalInstruction (some w))
      | .ok i => exec i s

/-- The instruction at PC would end in `Wait`: it is Fx0A and the key queue is empty (R68, R112). -/
def State.waitsAtPC (s : State) : Bool :=
  match s.fetch with
  | none => false
  | some w =>
    match decodeWord w with
    | .ok (.ldVxK _) => s.queue.isEmpty
    | _ => false

/-! ## Timer unit, present, outputs -/

/-- `TimerUpdate(now)` (R127). -/
def State.timerUpdate (s : State) (now : Nat) : State :=
  let k := (now - s.tLast) / s.params.period
  if 1 ≤ k then
    { s with
      dt := BitVec.ofNat 8 (s.dt.toNat - min s.dt.toNat k)
      st := BitVec.ofNat 8 (s.st.toNat - min s.st.toNat k)
      tLast := s.tLast + k * s.params.period }
  else s

/-- The present: `cur <- pend` (R138). -/
def State.present (s : State) : State := { s with cur := s.pend }

/-- The output `tone = (ST > 0)` (R129). -/
def State.tone (s : State) : Bool := decide (0 < s.st.toNat)

/-- The output `video`: the current plane (R135, R138). -/
def State.video (s : State) : Plane := s.cur

/-- The output `fault` (R118, R135). -/
def State.faultOut (s : State) : Option FaultRecord := s.fault

/-! ## Host operations -/

/-- The start of `Tick` (R137): the time, the key pushes in order, the held mask in `KEY_MODE = level`; then the batch
may run `IPF` instruction steps. -/
def State.beginTick (s : State) (t : Nat) (keys : List Key) (keyDownIn : BitVec 16) : State :=
  let s1 := keys.foldl State.keyPush { s with now := t }
  { s1 with
    keyDown := match s1.params.keyMode with
      | .queue => s1.keyDown
      | .level => keyDownIn
    phase := .batch s1.params.ipf }

/-- The end of `Tick` (R137): the timer update, then the present; the host may act again. -/
def State.endTick (s : State) : State := { (s.timerUpdate s.now).present with phase := .idle }

/-- `Load(image, offset, t)` (R144, R145). -/
def State.hostLoad (s : State) (image : List Byte) (offset t : Nat) : Result :=
  if offset < fontSize ∨ memSize < offset then .refused .loadOffset
  else if memSize - offset < image.length then
    .next (({ s with now := t } : State).raiseFault .programTooLarge none)
  else .next { s with now := t, mem := s.mem.writeAll offset image, rom := image, romOffset := offset }

/-- The memory after `Reset` (R147): the font, the other bytes as `RESET_RAM` says, then the image again. -/
def State.resetMem (s : State) : Mem :=
  let m := match s.params.resetRam with
    | .preserve => s.mem.restoreFont
    | .zero => s.mem.restoreFont.clearRam
  m.writeAll s.romOffset s.rom

/-- `Reset(t)` (R147), the only way out of a fault (R124). -/
def State.hostReset (s : State) (t : Nat) : State :=
  { s with
    v := Vector.replicate 16 0
    i := 0
    pc := 0x200
    sp := 0
    stack := Vector.replicate 16 0
    dt := 0
    st := 0
    tLast := t
    queue := []
    keyDown := 0
    pend := Plane.blank
    cur := Plane.blank
    fault := none
    mem := s.resetMem
    now := t }

/-- The time that an operation brings (R135). -/
def HostOp.time : HostOp → Nat
  | .load _ _ t => t
  | .reset t => t
  | .tick t _ _ => t

/-- `o`, the outcome of an operation at time `t`, where the host keeps its duty that "timestamps never decrease from one
operation to the next" (R136); a smaller time is refused (I25; notes/assumptions/24.md). -/
def State.atTime (s : State) (t : Nat) (o : Result) : Result := if t < s.now then .refused .timeBackwards else o

/-- The block takes one host operation (R135, R136). -/
def State.hostStep (s : State) (op : HostOp) : Result :=
  s.atTime op.time
    (match op with
    | .load image offset t => s.hostLoad image offset t
    | .reset t => .next (s.hostReset t)
    | .tick t keys keyDownIn => .next (s.beginTick t keys keyDownIn))

/-! ## The driver -/

/-- One turn of the batch loop of R137 with `left` more steps to go after this one: one instruction step, and the loop
ends early on Wait. -/
def State.batchStep (s : State) (left : Nat) : Result :=
  match s.stepInstruction with
  | .next s' => .next { s' with phase := .batch (if s.waitsAtPC then 0 else left) }
  | .fault f => .fault f
  | .refused r => .refused r

/-- One step of the machine. In a batch: one instruction while `fault == none` and steps are left, else the end of the
tick (R137, R139). Idle: the oldest host operation; with none pending the block does nothing (R136). -/
def State.advance (s : State) : Result :=
  match s.phase with
  | .batch 0 => .next s.endTick
  | .batch (left + 1) => if s.fault.isSome then .next s.endTick else s.batchStep left
  | .idle =>
    match s.inbox with
    | [] => .next s
    | op :: rest => ({ s with inbox := rest } : State).hostStep op

/-! ## The tick as one operation -/

/-- The batch loop of R137: at most `n` instruction steps, fewer on a fault or a Wait. -/
def State.runBatch (s : State) : Nat → Result
  | 0 => .next s
  | n + 1 =>
    if s.fault.isSome then .next s
    else
      match s.stepInstruction with
      | .next s' => if s.waitsAtPC then .next s' else State.runBatch s' n
      | .fault f => .fault f
      | .refused r => .refused r

/-- `Tick(t, keys, keyDownIn)` (R136, R137). -/
def State.tick (s : State) (t : Nat) (keys : List Key) (keyDownIn : BitVec 16) : Result :=
  s.atTime t
    (match (s.beginTick t keys keyDownIn).runBatch s.params.ipf with
    | .next s' => .next s'.endTick
    | .fault f => .fault f
    | .refused r => .refused r)

/-! ## Placing an instruction at PC -/

/-- `s` with the instruction word `w` stored where the next fetch reads, no fault, and a batch with a step left: what an
instruction step at that place needs (notes/assumptions/20.md). -/
def State.placeAtPC (s : State) (w : Word) : State :=
  let a := s.pc.toNat % memSize
  let b := (s.pc.toNat + 1) % memSize
  { s with
    mem := (s.mem.write a (hiByte w)).write b (loByte w)
    fault := none
    phase := match s.phase with
      | .batch (left + 1) => .batch (left + 1)
      | .batch 0 => .batch 1
      | .idle => .batch 1 }

end Sys2Proof.Machine
end

