-- ==== Sys2Proof/Machine/Step.lean ====
section
/-! DEFINITION. The step of the machine, and the state with a given instruction at the place the step fetches from. -/

namespace Sys2Proof.Machine

/-- One step of the machine (60_exceptions.md R137; notes/assumptions/1.md). -/
def step (s : State) : Host.Outcome State Fault Refusal := s.advance

/-- `s` with the instruction whose bits are `w`, numbered as spec/opcode_table.json numbers them, where `step` fetches
next, and all that running it as the very next step takes (notes/assumptions/20.md). -/
def State.withFetchWord (s : State) (nbits w : Nat) : State := s.placeAtPC (BitVec.ofNat 16 (w % 2 ^ nbits))

end Sys2Proof.Machine
end

