-- ==== Sys2Proof/Safety.lean ====
section
/-! DEFINITION. What a sound state of the block is: the invariant that every step keeps, in the terms claims use. -/

namespace Sys2Proof.Machine

/-- Where the driver stands agrees with the planes and the budget: between ticks `cur == pend` (60_exceptions.md R138),
and inside one at most `IPF` steps are left (R137). -/
def State.phaseOk (s : State) : Bool :=
  match s.phase with
  | .idle => s.cur == s.pend
  | .batch left => decide (left ≤ s.params.ipf)

/-- The retained image fits the memory above the font, as the load that accepted it checked (70_reset_and_hazards.md
R144, R147). -/
abbrev State.romFits (s : State) : Prop :=
  fontSize ≤ s.romOffset ∧ s.romOffset + s.rom.length ≤ memSize

/-- Outside `KEY_MODE = level` the mask, which R24 does not give the block there, is 0 (notes/assumptions/22.md). -/
abbrev State.keyDownOk (s : State) : Prop := s.params.keyMode = .queue → s.keyDown = 0

/-- The invariant of the block: parameters in range (R7), memory in canonical form, the font intact (R39), the key queue
within its capacity (R23), the retained image in range, the timestamp not past the time of the last operation (R22, R127,
R136), and, on the model's own fields, no held keys in queue mode (log 22) and the driver's phase in agreement with
planes and budget (log 1). -/
structure State.Inv (s : State) : Prop where
  params : s.params.wf
  memory : s.mem.wf
  font : s.mem.fontIntact
  queue : s.queue.length ≤ s.params.keyqCap
  keyDown : s.keyDownOk
  rom : s.romFits
  clock : s.tLast ≤ s.now
  phase : s.phaseOk = true

/-- The block is halted: it has raised a fault and awaits a reset (R27, R119). -/
def State.isHalted (s : State) : Bool := s.fault.isSome

/-! ## Frames -/

/-- `t` is `s` but for V and PC, and every byte of memory reads as before. -/
abbrev State.onlyRegsAndPc (s t : State) : Prop :=
  t = { s with v := t.v, pc := t.pc } ∧ ∀ a, Mem.read t.mem a = Mem.read s.mem a

/-- Every general register but those listed holds in `t` what it held in `s`. -/
abbrev State.regsKeptBut (s t : State) (written : List Reg) : Prop := ∀ j, j ∉ written → t.getV j = s.getV j

/-- `Next` happened: PC moved by 2 modulo 2^16 (40_control.md R65). -/
abbrev State.pcNext (s t : State) : Prop := t.pc.toNat = (s.pc.toNat + 2) % 2 ^ 16

/-- `Skip` happened: PC moved by 4 modulo 2^16 (R66). -/
abbrev State.pcSkip (s t : State) : Prop := t.pc.toNat = (s.pc.toNat + 4) % 2 ^ 16

/-! ## The formats of 30_encoding.md R53, bit 15 at the left -/

/-- Format NNN: `o1(4) nnn(12)`. -/
def formatNNN (o1 : BitVec 4) (nnn : Addr12) : Word := o1 ++ nnn

/-- Format XKK: `o1(4) x(4) kk(8)`. -/
def formatXKK (o1 : BitVec 4) (x : Reg) (kk : Byte) : Word := o1 ++ (BitVec.ofNat 4 x.val ++ kk)

/-- Formats XYF and XYN: `o1(4) x(4) y(4) f(4)`. -/
def formatXYF (o1 : BitVec 4) (x y : Reg) (f : BitVec 4) : Word :=
  o1 ++ (BitVec.ofNat 4 x.val ++ (BitVec.ofNat 4 y.val ++ f))

/-- Format XFF: `o1(4) x(4) ff(8)`. -/
def formatXFF (o1 : BitVec 4) (x : Reg) (ff : Byte) : Word := o1 ++ (BitVec.ofNat 4 x.val ++ ff)

/-! ## The sprite of 43_display.md R103 and the glyphs of 20_memory.md R40 -/

/-- The sprite `rows` with its origin at column `ox`, row `oy` has an on-pixel at column `c`, row `r` (R103). -/
def spriteCovers (rows : List Byte) (ox oy c r : Nat) : Bool :=
  decide (ox ≤ c ∧ c < ox + 8 ∧ oy ≤ r ∧ r < oy + rows.length) && (rows.getD (r - oy) 0).getLsbD (7 - (c - ox))

/-- The glyph table of R40, one entry per digit 0 to F. -/
def glyphTable : Vector (List Byte) 16 :=
  #v[[0xF0, 0x90, 0x90, 0x90, 0xF0],
    [0x20, 0x60, 0x20, 0x20, 0x70],
    [0xF0, 0x10, 0xF0, 0x80, 0xF0],
    [0xF0, 0x10, 0xF0, 0x10, 0xF0],
    [0x90, 0x90, 0xF0, 0x10, 0x10],
    [0xF0, 0x80, 0xF0, 0x10, 0xF0],
    [0xF0, 0x80, 0xF0, 0x90, 0xF0],
    [0xF0, 0x10, 0x20, 0x40, 0x40],
    [0xF0, 0x90, 0xF0, 0x90, 0xF0],
    [0xF0, 0x90, 0xF0, 0x10, 0xF0],
    [0xF0, 0x90, 0xF0, 0x90, 0x90],
    [0xE0, 0x90, 0xE0, 0x90, 0xE0],
    [0xF0, 0x80, 0x80, 0x80, 0xF0],
    [0xE0, 0x90, 0x90, 0x90, 0xE0],
    [0xF0, 0x80, 0xF0, 0x80, 0xF0],
    [0xF0, 0x80, 0xF0, 0x80, 0x80]]

/-- The five rows of the glyph of a digit (R40). -/
def glyphRows (d : Fin 16) : List Byte := glyphTable.get d

end Sys2Proof.Machine
end

