-- ==== Sys2Proof/Certificates/Slice0/Obligations.lean ====
section
/-! DEFINITION. The statements for the provers, in the order of the spec's files. Each docstring names the rules it
formalises; "Model's choice" marks a clause that rests on a log entry instead. -/

open Sys2Proof Sys2Proof.Machine

/-! ## Memory (20_memory.md) -/

/-- R36 (its reduction), R37, R38. `EA` reduces modulo 4096 under `wrap` and is BadAddress at or above 4096 under `fault`; a
read gives the byte there, which in the font region is the font byte wherever the font is intact (R39, in State.Inv); a
write stores the byte there unless the effective address is in the font region, and changes no other byte and nothing
but memory. The canonical form that it keeps is the model's own (log 5). -/
def Obligations.MemoryAccessLaws : Prop :=
  ∀ (s : State) (a : Nat) (b : Byte), s.mem.wf →
    effAddr .wrap a = some (a % 4096) ∧
    effAddr .fault a = (if a < 4096 then some a else none) ∧
    (effAddr s.params.addrPolicy a = none → s.memRead a = none ∧ s.memWrite a b = none) ∧
    (∀ e, effAddr s.params.addrPolicy a = some e →
      s.memRead a = some (Mem.read s.mem e) ∧
      (s.mem.fontIntact → e < 80 → s.memRead a = some (Mem.unlisted e)) ∧
      ∃ t, s.memWrite a b = some t ∧ t = { s with mem := t.mem } ∧ t.mem.wf ∧
        ∀ d, Mem.read t.mem d = if d = e ∧ 80 ≤ e then b else Mem.read s.mem d)

/-- R39 (derived by the spec). No instruction changes a byte of the font region. -/
def Obligations.NoInstructionChangesTheFont : Prop :=
  ∀ (i : Instr) (s t : State), exec i s = .next t → ∀ a < 80, Mem.read t.mem a = Mem.read s.mem a

/-- R33: of all instructions only Fx33 and Fx55 change memory, and only at the addresses EA(I) .. EA(I + 2) and
EA(I) .. EA(I + x). -/
def Obligations.OnlyStoresChangeMemory : Prop :=
  ∀ (i : Instr) (s t : State), exec i s = .next t →
    ∀ a, Mem.read t.mem a ≠ Mem.read s.mem a →
      (∃ x, i = .ldBVx x ∧ ∃ j < 3, effAddr s.params.addrPolicy (s.i.toNat + j) = some a) ∨
      (∃ x, i = .ldMemVx x ∧ ∃ j ≤ x.val, effAddr s.params.addrPolicy (s.i.toNat + j) = some a)

/-- R47, R151 (derived by the spec). A byte that Fx55 or Fx33 stored at an address of the next instruction is what the next
fetch reads there, be it the high byte, the low byte or both. Under `fault` this is where the store and the fetch raise
no BadAddress. -/
def Obligations.StoredCodeIsFetchedNext : Prop :=
  ∀ (s t : State) (x : Reg), s.mem.wf →
    (s.params.addrPolicy = .wrap ∨ s.i.toNat + x.val < 4096 ∧ s.pc.toNat + 3 < 4096 →
      exec (.ldMemVx x) s = .next t → s.pcNext t ∧ ∃ hi lo : Byte, t.fetch = some (hi ++ lo) ∧
        ∀ j : Reg, j ≤ x → 80 ≤ (s.i.toNat + j.val) % 4096 →
          (t.pc.toNat % 4096 = (s.i.toNat + j.val) % 4096 → hi = s.getV j) ∧
          ((t.pc.toNat + 1) % 4096 = (s.i.toNat + j.val) % 4096 → lo = s.getV j)) ∧
    (s.params.addrPolicy = .wrap ∨ s.i.toNat + 2 < 4096 ∧ s.pc.toNat + 3 < 4096 →
      exec (.ldBVx x) s = .next t → s.pcNext t ∧ ∃ hi lo : Byte, t.fetch = some (hi ++ lo) ∧
        ∀ j ≤ 2, 80 ≤ (s.i.toNat + j) % 4096 →
          (t.pc.toNat % 4096 = (s.i.toNat + j) % 4096 → hi.toNat = (s.getV x).toNat / 10 ^ (2 - j) % 10) ∧
          ((t.pc.toNat + 1) % 4096 = (s.i.toNat + j) % 4096 → lo.toNat = (s.getV x).toNat / 10 ^ (2 - j) % 10))

/-! ## Encoding (30_encoding.md) -/

/-- R51. The fetch reads the byte at PC into bits 15..8 and the byte at PC + 1 (a natural sum) into bits 7..0, both
reduced modulo 4096 under `wrap`; under `fault` a PC at or above 4095 raises BadAddress with no opcode. -/
def Obligations.FetchReadsBigEndianWord : Prop :=
  ∀ s : State,
    (s.params.addrPolicy = .wrap →
      s.fetch = some (Mem.read s.mem (s.pc.toNat % 4096) ++ Mem.read s.mem ((s.pc.toNat + 1) % 4096))) ∧
    (s.params.addrPolicy = .fault → s.pc.toNat < 4095 →
      s.fetch = some (Mem.read s.mem s.pc.toNat ++ Mem.read s.mem (s.pc.toNat + 1))) ∧
    (s.params.addrPolicy = .fault → 4095 ≤ s.pc.toNat → s.fault = none →
      s.stepInstruction = .next { s with fault := some ⟨.badAddress, s.pc, none⟩ })

/-- Decoding an encoded well-formed instruction gives it back, with every operand at every value. -/
def Obligations.DecodeOfEncode : Prop :=
  ∀ (i : Instr) (rest : List Byte), i.wf = true →
    decodeWord (encode i) = .ok i ∧ decodeBytes (encodeBytes i ++ rest) = .ok (i, rest)

/-- A decoded word is the encoding of what it decodes to, but for the ignored y field of SHR and SHL. Model's choice: the
encoder writes 0 there (log 13). -/
def Obligations.EncodeOfDecode : Prop :=
  ∀ (w : Word) (i : Instr), decodeWord w = .ok i →
    i.wf = true ∧
    (encode i = w ∨ ∃ x y : Reg, (i = .shr x ∧ w = formatXYF 0x8 x y 0x6) ∨ (i = .shl x ∧ w = formatXYF 0x8 x y 0xE))

/-- The illegal words are those of R57's five patterns and no others. -/
def Obligations.IllegalWordPatterns : Prop :=
  ∀ (w : Word), (∃ e, decodeWord w = .error e) ↔
    (w.extractLsb' 12 4 = 0x5 ∧ w.extractLsb' 0 4 ≠ 0) ∨
    (w.extractLsb' 12 4 = 0x8 ∧ w.extractLsb' 0 4 ∈ ([0x8, 0x9, 0xA, 0xB, 0xC, 0xD, 0xF] : List (BitVec 4))) ∨
    (w.extractLsb' 12 4 = 0x9 ∧ w.extractLsb' 0 4 ≠ 0) ∨
    (w.extractLsb' 12 4 = 0xE ∧ w.extractLsb' 0 8 ∉ ([0x9E, 0xA1] : List (BitVec 8))) ∨
    (w.extractLsb' 12 4 = 0xF ∧
      w.extractLsb' 0 8 ∉ ([0x07, 0x0A, 0x15, 0x18, 0x1E, 0x29, 0x33, 0x55, 0x65] : List (BitVec 8)))

/-- At least one word of each of the sixteen families (the major opcodes 0 to F, R56), written out by hand, decodes to the
instruction it stands for (95_test_vectors.md L2.1 and the examples of the instruction rules). -/
def Obligations.SampleWordsDecode : Prop :=
  decodeWord 0x00E0 = .ok .cls ∧ decodeWord 0x00EE = .ok .ret ∧ decodeWord 0x00E1 = .ok (.sys 0x0E1) ∧
  decodeWord 0x1ABC = .ok (.jp 0xABC) ∧ decodeWord 0x2456 = .ok (.call 0x456) ∧
  decodeWord 0x3342 = .ok (.seImm 0x3 0x42) ∧ decodeWord 0x4342 = .ok (.sneImm 0x3 0x42) ∧
  decodeWord 0x5120 = .ok (.seReg 0x1 0x2) ∧ decodeWord 0x6A5C = .ok (.ldImm 0xA 0x5C) ∧
  decodeWord 0x7102 = .ok (.addImm 0x1 0x02) ∧ decodeWord 0x81F6 = .ok (.shr 0x1) ∧
  decodeWord 0x9120 = .ok (.sneReg 0x1 0x2) ∧ decodeWord 0xA123 = .ok (.ldI 0x123) ∧
  decodeWord 0xB300 = .ok (.jpV0 0x300) ∧ decodeWord 0xC30F = .ok (.rnd 0x3 0x0F) ∧
  decodeWord 0xD012 = .ok (.drw 0x0 0x1 0x2) ∧ decodeWord 0xE19E = .ok (.skp 0x1) ∧
  decodeWord 0xF21E = .ok (.addIVx 0x2) ∧ decodeWord 0xF165 = .ok (.ldVxMem 0x1) ∧
  decodeWord 0x8128 = .error (.illegal 0x8128)

/-! ## Instruction cycle and control transfer (40_control.md) -/

/-- R62. In a batch with a step left and no fault, a step of the machine whose fetched word decodes to `i` is `exec i`;
around it the driver counts one step, and ends the batch exactly when `i` is Fx0A and the key queue is empty (R137;
the driver's phase is the model's own field, log 1). -/
def Obligations.StepRunsDecodedInstruction : Prop :=
  ∀ (s : State) (left : Nat) (w : Word) (i : Instr), s.phase = .batch (left + 1) → s.fault = none →
    s.fetch = some w → decodeWord w = .ok i →
    (∀ t, exec i s = .next t → step s = .next { t with phase := .batch (if s.waitsAtPC then 0 else left) }) ∧
    (∀ f, exec i s = .fault f → step s = .fault f) ∧
    (∀ r, exec i s = .refused r → step s = .refused r) ∧
    (s.waitsAtPC = true ↔ (∃ x, i = .ldVxK x) ∧ s.queue = [])

/-- The driver's place and the pending host operations neither decide what an instruction does nor are changed by it
(R64, R136; both are the model's own fields, log 1). -/
def Obligations.InstructionsIgnoreTheDriver : Prop :=
  ∀ (i : Instr) (s t : State) (p : Phase) (b : List HostOp), exec i s = .next t →
    t.phase = s.phase ∧ t.inbox = s.inbox ∧
    exec i { s with phase := p, inbox := b } = .next { t with phase := p, inbox := b }

/-- R69, R70, R73. SYS and JP go to nnn, JP V0 to nnn + V0; nothing but PC changes. SYS takes every 0nnn word but 00E0
and 00EE. -/
def Obligations.JumpResults : Prop :=
  ∀ (nnn : Addr12) (s : State),
    (nnn ≠ 0x0E0 → nnn ≠ 0x0EE → decodeWord (formatNNN 0x0 nnn) = .ok (.sys nnn)) ∧
    decodeWord (formatNNN 0x1 nnn) = .ok (.jp nnn) ∧
    decodeWord (formatNNN 0xB nnn) = .ok (.jpV0 nnn) ∧
    (∃ t, exec (.sys nnn) s = .next t ∧ t = { s with pc := t.pc } ∧ t.pc.toNat = nnn.toNat) ∧
    (∃ t, exec (.jp nnn) s = .next t ∧ t = { s with pc := t.pc } ∧ t.pc.toNat = nnn.toNat) ∧
    (∃ t, exec (.jpV0 nnn) s = .next t ∧ t = { s with pc := t.pc } ∧ t.pc.toNat = nnn.toNat + (s.getV 0).toNat)

/-- R71. With SP below 16, CALL stores its own address in stack[SP], counts it, and goes to nnn; no other entry and no
other state changes. With SP = 16 it raises StackOverflow and nothing else changes. -/
def Obligations.CallResult : Prop :=
  ∀ (nnn : Addr12) (s : State),
    decodeWord (formatNNN 0x2 nnn) = .ok (.call nnn) ∧
    (s.sp.val < 16 → ∃ t, exec (.call nnn) s = .next t ∧
      t = { s with pc := t.pc, sp := t.sp, stack := t.stack } ∧
      t.sp.val = s.sp.val + 1 ∧ t.pc.toNat = nnn.toNat ∧
      ∀ j (h : j < 16), t.stack[j] = if j = s.sp.val then s.pc else s.stack[j]) ∧
    (s.sp.val = 16 → exec (.call nnn) s =
      .next { s with fault := some ⟨.stackOverflow, s.pc, some (formatNNN 0x2 nnn)⟩ })

/-- R72. With SP above 0, RET takes one frame and goes to its saved address plus 2 modulo 2^16; the entry keeps its value
and no other state changes. With SP = 0 it raises StackUnderflow and nothing else changes. -/
def Obligations.RetResult : Prop :=
  ∀ (s : State),
    decodeWord 0x00EE = .ok .ret ∧
    (∀ j (h : j < 16), s.sp.val = j + 1 → ∃ t, exec .ret s = .next t ∧ t = { s with pc := t.pc, sp := t.sp } ∧
      t.sp.val = j ∧ t.pc.toNat = (s.stack[j].toNat + 2) % 2 ^ 16) ∧
    (s.sp.val = 0 → exec .ret s = .next { s with fault := some ⟨.stackUnderflow, s.pc, some 0x00EE⟩ })

/-- R74, R75, R76, R77. Each skip instruction moves PC by 4 when its comparison holds and by 2 otherwise, and changes
nothing else. -/
def Obligations.SkipResults : Prop :=
  ∀ (x y : Reg) (kk : Byte) (s : State),
    decodeWord (formatXKK 0x3 x kk) = .ok (.seImm x kk) ∧
    decodeWord (formatXKK 0x4 x kk) = .ok (.sneImm x kk) ∧
    decodeWord (formatXYF 0x5 x y 0x0) = .ok (.seReg x y) ∧
    decodeWord (formatXYF 0x9 x y 0x0) = .ok (.sneReg x y) ∧
    (∀ f : BitVec 4, f ≠ 0 → ∀ i, decodeWord (formatXYF 0x5 x y f) ≠ .ok i ∧ decodeWord (formatXYF 0x9 x y f) ≠ .ok i) ∧
    (∃ t, exec (.seImm x kk) s = .next t ∧ t = { s with pc := t.pc } ∧
      if s.getV x = kk then s.pcSkip t else s.pcNext t) ∧
    (∃ t, exec (.sneImm x kk) s = .next t ∧ t = { s with pc := t.pc } ∧
      if s.getV x ≠ kk then s.pcSkip t else s.pcNext t) ∧
    (∃ t, exec (.seReg x y) s = .next t ∧ t = { s with pc := t.pc } ∧
      if s.getV x = s.getV y then s.pcSkip t else s.pcNext t) ∧
    (∃ t, exec (.sneReg x y) s = .next t ∧ t = { s with pc := t.pc } ∧
      if s.getV x ≠ s.getV y then s.pcSkip t else s.pcNext t)

/-- R65, R66, R68. Outside the five jumps an instruction that raises no fault moves PC by 2; only the six skip
instructions may move it by 4 instead; only Fx0A with an empty key queue leaves it. -/
def Obligations.PostActionOfEveryInstruction : Prop :=
  ∀ (i : Instr) (s t : State), exec i s = .next t → s.fault = none → t.fault = none →
    (∀ nnn, i ≠ .sys nnn ∧ i ≠ .jp nnn ∧ i ≠ .call nnn ∧ i ≠ .jpV0 nnn) → i ≠ .ret →
    s.pcNext t ∨
    (s.pcSkip t ∧ ((∃ x kk, i = .seImm x kk ∨ i = .sneImm x kk) ∨ (∃ x y, i = .seReg x y ∨ i = .sneReg x y) ∨
      (∃ x, i = .skp x ∨ i = .sknp x))) ∨
    (t = s ∧ s.queue = [] ∧ ∃ x, i = .ldVxK x)

/-- R78: a CALL with SP below 16 followed by a RET restores SP and leaves PC at its value before the CALL plus 2. -/
def Obligations.CallThenRetRestores : Prop :=
  ∀ (nnn : Addr12) (s t : State), s.sp.val < 16 → exec (.call nnn) s = .next t →
    ∃ u, exec .ret t = .next u ∧ u.sp = s.sp ∧ s.pcNext u ∧
      u = { s with pc := u.pc, stack := u.stack } ∧ ∀ j (h : j < 16), j ≠ s.sp.val → u.stack[j] = s.stack[j]

/-! ## Registers and ALU (41_register_alu.md) -/

/-- R79, R80. LD Vx, kk and ADD Vx, kk (modulo 256): no other register, VF among them, and no other state but PC
changes. -/
def Obligations.ImmediateResults : Prop :=
  ∀ (x : Reg) (kk : Byte) (s : State),
    decodeWord (formatXKK 0x6 x kk) = .ok (.ldImm x kk) ∧
    decodeWord (formatXKK 0x7 x kk) = .ok (.addImm x kk) ∧
    (∃ t, exec (.ldImm x kk) s = .next t ∧ s.onlyRegsAndPc t ∧ s.regsKeptBut t [x] ∧ s.pcNext t ∧ t.getV x = kk) ∧
    (∃ t, exec (.addImm x kk) s = .next t ∧ s.onlyRegsAndPc t ∧ s.regsKeptBut t [x] ∧ s.pcNext t ∧
      (t.getV x).toNat = ((s.getV x).toNat + kk.toNat) % 256)

/-- R82, R83, R84, R85. LD, OR, AND, XOR: bit by bit; no other register, VF among them, and no other state but PC
changes. -/
def Obligations.LogicResults : Prop :=
  ∀ (x y : Reg) (s : State),
    decodeWord (formatXYF 0x8 x y 0x0) = .ok (.ldReg x y) ∧
    decodeWord (formatXYF 0x8 x y 0x1) = .ok (.orReg x y) ∧
    decodeWord (formatXYF 0x8 x y 0x2) = .ok (.andReg x y) ∧
    decodeWord (formatXYF 0x8 x y 0x3) = .ok (.xorReg x y) ∧
    (∃ t, exec (.ldReg x y) s = .next t ∧ s.onlyRegsAndPc t ∧ s.regsKeptBut t [x] ∧ s.pcNext t ∧
      t.getV x = s.getV y) ∧
    (∃ t, exec (.orReg x y) s = .next t ∧ s.onlyRegsAndPc t ∧ s.regsKeptBut t [x] ∧ s.pcNext t ∧
      ∀ k < 8, (t.getV x).getLsbD k = ((s.getV x).getLsbD k || (s.getV y).getLsbD k)) ∧
    (∃ t, exec (.andReg x y) s = .next t ∧ s.onlyRegsAndPc t ∧ s.regsKeptBut t [x] ∧ s.pcNext t ∧
      ∀ k < 8, (t.getV x).getLsbD k = ((s.getV x).getLsbD k && (s.getV y).getLsbD k)) ∧
    (∃ t, exec (.xorReg x y) s = .next t ∧ s.onlyRegsAndPc t ∧ s.regsKeptBut t [x] ∧ s.pcNext t ∧
      ∀ k < 8, (t.getV x).getLsbD k = ((s.getV x).getLsbD k ^^ (s.getV y).getLsbD k))

/-- R86, R87, R89. ADD, SUB, SUBN: the result modulo 256 from the operands as they were; VF, unless it is the
destination, is the carry or the strict comparison; no other register and no other state but PC changes. -/
def Obligations.AddSubResults : Prop :=
  ∀ (x y : Reg) (s : State),
    decodeWord (formatXYF 0x8 x y 0x4) = .ok (.addReg x y) ∧
    decodeWord (formatXYF 0x8 x y 0x5) = .ok (.subReg x y) ∧
    decodeWord (formatXYF 0x8 x y 0x7) = .ok (.subnReg x y) ∧
    (∃ t, exec (.addReg x y) s = .next t ∧ s.onlyRegsAndPc t ∧ s.regsKeptBut t [x, vF] ∧ s.pcNext t ∧
      (t.getV x).toNat = ((s.getV x).toNat + (s.getV y).toNat) % 256 ∧
      (x ≠ vF → (t.getV vF).toNat = if (s.getV x).toNat + (s.getV y).toNat > 255 then 1 else 0)) ∧
    (∃ t, exec (.subReg x y) s = .next t ∧ s.onlyRegsAndPc t ∧ s.regsKeptBut t [x, vF] ∧ s.pcNext t ∧
      (t.getV x).toNat = ((s.getV x).toNat + 256 - (s.getV y).toNat) % 256 ∧
      (x ≠ vF → (t.getV vF).toNat = if (s.getV x).toNat > (s.getV y).toNat then 1 else 0)) ∧
    (∃ t, exec (.subnReg x y) s = .next t ∧ s.onlyRegsAndPc t ∧ s.regsKeptBut t [x, vF] ∧ s.pcNext t ∧
      (t.getV x).toNat = ((s.getV y).toNat + 256 - (s.getV x).toNat) % 256 ∧
      (x ≠ vF → (t.getV vF).toNat = if (s.getV y).toNat > (s.getV x).toNat then 1 else 0))

/-- R88, R90. SHR and SHL of Vx, for every value of the ignored y field of the word: the shifted value, and in VF,
unless it is the destination, the bit shifted out; no other register and no other state but PC changes. -/
def Obligations.ShiftResults : Prop :=
  ∀ (x y : Reg) (s : State),
    decodeWord (formatXYF 0x8 x y 0x6) = .ok (.shr x) ∧
    decodeWord (formatXYF 0x8 x y 0xE) = .ok (.shl x) ∧
    (∃ t, exec (.shr x) s = .next t ∧ s.onlyRegsAndPc t ∧ s.regsKeptBut t [x, vF] ∧ s.pcNext t ∧
      (t.getV x).toNat = (s.getV x).toNat / 2 ∧
      (x ≠ vF → (t.getV vF).toNat = (s.getV x).toNat % 2)) ∧
    (∃ t, exec (.shl x) s = .next t ∧ s.onlyRegsAndPc t ∧ s.regsKeptBut t [x, vF] ∧ s.pcNext t ∧
      (t.getV x).toNat = (s.getV x).toNat * 2 % 256 ∧
      (x ≠ vF → (t.getV vF).toNat = (s.getV x).toNat / 128))

/-- R91. RND writes a free draw AND kk, bit by bit, whatever the draw is (R134), and takes the next draw the next time; no
other register and no other state of the block but PC changes. Model's choice (log 4): the draws are numbered by the
model's own counter `draws`, and draw number k is the opaque `Config.rand8 k`. -/
def Obligations.RandomResult : Prop :=
  ∀ (x : Reg) (kk : Byte) (s : State),
    decodeWord (formatXKK 0xC x kk) = .ok (.rnd x kk) ∧
    ∃ t, exec (.rnd x kk) s = .next t ∧ t = { s with v := t.v, pc := t.pc, draws := s.draws + 1 } ∧
      (∀ a, Mem.read t.mem a = Mem.read s.mem a) ∧ s.regsKeptBut t [x] ∧ s.pcNext t ∧
      ∀ k < 8, (t.getV x).getLsbD k = ((Config.rand8 s.draws).getLsbD k && kk.getLsbD k)

/-- R14: VF changes only by an instruction that names it as its destination, or by ADD, SUB, SHR, SUBN, SHL of registers,
DRW; and after those six, where no fault was raised, it is 0 or 1 unless it is the destination. -/
def Obligations.FlagWriters : Prop :=
  ∀ (i : Instr) (s t : State), exec i s = .next t →
    (t.getV vF ≠ s.getV vF →
      (∃ x y, i = .addReg x y ∨ i = .subReg x y ∨ i = .subnReg x y) ∨ (∃ x, i = .shr x ∨ i = .shl x) ∨
      (∃ x y n, i = .drw x y n) ∨ (∃ kk, i = .ldImm vF kk ∨ i = .addImm vF kk ∨ i = .rnd vF kk) ∨
      (∃ y, i = .ldReg vF y ∨ i = .orReg vF y ∨ i = .andReg vF y ∨ i = .xorReg vF y) ∨
      i = .ldVxDT vF ∨ i = .ldVxK vF ∨ i = .ldVxMem vF) ∧
    ((∃ x y, x ≠ vF ∧ (i = .addReg x y ∨ i = .subReg x y ∨ i = .subnReg x y ∨ i = .shr x ∨ i = .shl x)) →
      t.getV vF = 0 ∨ t.getV vF = 1) ∧
    ((∃ x y n, i = .drw x y n) → t.fault = none → t.getV vF = 0 ∨ t.getV vF = 1)

/-! ## Index register and memory instructions (42_index_memory.md) -/

/-- R94, R95, R96. LD I, ADD I and LD F: I as a 16-bit value, no mask on Vx; nothing but I and PC changes. -/
def Obligations.IndexResults : Prop :=
  ∀ (x : Reg) (nnn : Addr12) (s : State),
    decodeWord (formatNNN 0xA nnn) = .ok (.ldI nnn) ∧
    decodeWord (formatXFF 0xF x 0x1E) = .ok (.addIVx x) ∧
    decodeWord (formatXFF 0xF x 0x29) = .ok (.ldFVx x) ∧
    (∃ t, exec (.ldI nnn) s = .next t ∧ t = { s with i := t.i, pc := t.pc } ∧ s.pcNext t ∧
      t.i.toNat = nnn.toNat) ∧
    (∃ t, exec (.addIVx x) s = .next t ∧ t = { s with i := t.i, pc := t.pc } ∧ s.pcNext t ∧
      t.i.toNat = (s.i.toNat + (s.getV x).toNat) % 2 ^ 16) ∧
    (∃ t, exec (.ldFVx x) s = .next t ∧ t = { s with i := t.i, pc := t.pc } ∧ s.pcNext t ∧
      t.i.toNat = (s.getV x).toNat * 5)

/-- R97. LD B writes the three decimal digits of Vx at I, I + 1, I + 2, each address reduced by EA and each write into the
font region discarded; every other byte, every register, I and all else but PC keep their values. It completes under
`wrap` always and under `fault` when I + 2 is below 4096; otherwise it raises BadAddress and writes nothing. -/
def Obligations.DecimalDigitsResult : Prop :=
  ∀ (x : Reg) (s : State), s.mem.wf →
    decodeWord (formatXFF 0xF x 0x33) = .ok (.ldBVx x) ∧
    (s.params.addrPolicy = .wrap ∨ s.i.toNat + 2 < 4096 →
      ∃ t, exec (.ldBVx x) s = .next t ∧ t = { s with mem := t.mem, pc := t.pc } ∧ s.pcNext t ∧
        ∀ a, Mem.read t.mem a =
          if a < 80 then Mem.read s.mem a
          else if a = s.i.toNat % 4096 then BitVec.ofNat 8 ((s.getV x).toNat / 100)
          else if a = (s.i.toNat + 1) % 4096 then BitVec.ofNat 8 ((s.getV x).toNat / 10 % 10)
          else if a = (s.i.toNat + 2) % 4096 then BitVec.ofNat 8 ((s.getV x).toNat % 10)
          else Mem.read s.mem a) ∧
    (s.params.addrPolicy = .fault → 4096 ≤ s.i.toNat + 2 → exec (.ldBVx x) s =
      .next { s with fault := some ⟨.badAddress, s.pc, some (formatXFF 0xF x 0x33)⟩ })

/-- R98. LD [I], Vx writes V0..Vx (x the index field) at I, I + 1, ..., I + x, each address reduced by EA and each write
into the font region discarded; every other byte, every register, I and all else but PC keep their values. It completes
under `wrap` always and under `fault` when I + x is below 4096; otherwise it raises BadAddress and writes nothing. -/
def Obligations.StoreRegistersResult : Prop :=
  ∀ (x : Reg) (s : State), s.mem.wf →
    decodeWord (formatXFF 0xF x 0x55) = .ok (.ldMemVx x) ∧
    (s.params.addrPolicy = .wrap ∨ s.i.toNat + x.val < 4096 →
      ∃ t, exec (.ldMemVx x) s = .next t ∧ t = { s with mem := t.mem, pc := t.pc } ∧ s.pcNext t ∧
        (∀ j : Reg, j ≤ x → 80 ≤ (s.i.toNat + j.val) % 4096 →
          Mem.read t.mem ((s.i.toNat + j.val) % 4096) = s.getV j) ∧
        (∀ a, (a < 80 ∨ ∀ j : Reg, j ≤ x → a ≠ (s.i.toNat + j.val) % 4096) →
          Mem.read t.mem a = Mem.read s.mem a)) ∧
    (s.params.addrPolicy = .fault → 4096 ≤ s.i.toNat + x.val → exec (.ldMemVx x) s =
      .next { s with fault := some ⟨.badAddress, s.pc, some (formatXFF 0xF x 0x55)⟩ })

/-- R99. LD Vx, [I] loads V0..Vx (x the index field) from I, I + 1, ..., I + x, each address reduced by EA; the registers
above Vx, memory, I and all else but PC keep their values. It completes under `wrap` always and under `fault` when
I + x is below 4096; otherwise it raises BadAddress and writes no register. -/
def Obligations.LoadRegistersResult : Prop :=
  ∀ (x : Reg) (s : State),
    decodeWord (formatXFF 0xF x 0x65) = .ok (.ldVxMem x) ∧
    (s.params.addrPolicy = .wrap ∨ s.i.toNat + x.val < 4096 →
      ∃ t, exec (.ldVxMem x) s = .next t ∧ s.onlyRegsAndPc t ∧ s.pcNext t ∧
        ∀ j : Reg, t.getV j = if j ≤ x then Mem.read s.mem ((s.i.toNat + j.val) % 4096) else s.getV j) ∧
    (s.params.addrPolicy = .fault → 4096 ≤ s.i.toNat + x.val → exec (.ldVxMem x) s =
      .next { s with fault := some ⟨.badAddress, s.pc, some (formatXFF 0xF x 0x65)⟩ })

/-- R100 (derived by the spec). Fx55 and then Fx65 with the same x, I and parameters restores V0..Vx in any state with
the memory the store left, when no address EA(I) .. EA(I + x) is in the font region: under `wrap` always, and under
`fault` when I + x is below 4096 (otherwise both raise BadAddress: R98, R99). -/
def Obligations.StoreThenLoadRestoresRegisters : Prop :=
  ∀ (x : Reg) (s t u : State), s.mem.wf → (s.params.addrPolicy = .wrap ∨ s.i.toNat + x.val < 4096) →
    (∀ j : Reg, j ≤ x → 80 ≤ (s.i.toNat + j.val) % 4096) →
    exec (.ldMemVx x) s = .next t → u.mem = t.mem → u.i = s.i → u.params = s.params →
    ∃ r, exec (.ldVxMem x) u = .next r ∧ ∀ j : Reg, j ≤ x → r.getV j = s.getV j

/-- R40, R96, R100: where the font is intact (as R39 has it at all times), after Fx29 with Vx at most 0xF the five bytes
at I are the glyph of that digit, under each address policy. -/
def Obligations.FontGlyphAddressed : Prop :=
  ∀ (x d : Reg) (s : State), s.mem.fontIntact → (s.getV x).toNat = d.val →
    ∃ t, exec (.ldFVx x) s = .next t ∧ t.readBytes t.i.toNat 5 = some (glyphRows d)

/-- R16: of all instructions only Annn, Fx1E and Fx29 change I. -/
def Obligations.IndexWriters : Prop :=
  ∀ (i : Instr) (s t : State), exec i s = .next t → t.i ≠ s.i →
    (∃ nnn, i = .ldI nnn) ∨ (∃ x, i = .addIVx x ∨ i = .ldFVx x)

/-! ## Display (43_display.md) -/

/-- R102, R104. CLS turns every pixel of the pending plane off and changes nothing else but PC. -/
def Obligations.ClearScreenResult : Prop :=
  ∀ s : State,
    decodeWord 0x00E0 = .ok .cls ∧
    ∃ t, exec .cls s = .next t ∧ t = { s with pend := t.pend, pc := t.pc } ∧ s.pcNext t ∧
      ∀ c r, c < 64 → r < 32 → t.pend.pixel c r = false

/-- R103, R105, R106. A blit flips exactly the pixels that the sprite covers inside the plane, with its origin reduced
modulo 64 and 32 and its body clipped at the right and bottom edges; the collision bit says whether one of them was on. -/
def Obligations.BlitPixels : Prop :=
  ∀ (p : Plane) (vx vy : Byte) (rows : List Byte),
    (∀ c r, c < 64 → r < 32 → (p.draw vx vy rows).1.pixel c r =
      (p.pixel c r ^^ spriteCovers rows (vx.toNat % 64) (vy.toNat % 32) c r)) ∧
    ((p.draw vx vy rows).2 = true ↔ ∃ c r, c < 64 ∧ r < 32 ∧
      spriteCovers rows (vx.toNat % 64) (vy.toNat % 32) c r = true ∧ p.pixel c r = true)

/-- R107 (but for its last corner case, see DrawTwiceRestores). DRW reads n bytes at I, I + 1, ..., each address reduced
by EA, blits them at (Vx, Vy) taken before VF is written, and sets VF to the collision bit; no other register, memory,
I, the current plane and all else but PC keep their values. n = 0 draws nothing and sets VF to 0. It completes under
`wrap` always and under `fault` when n is 0 or I + n - 1 is below 4096; otherwise it raises BadAddress and draws
nothing. -/
def Obligations.DrawResult : Prop :=
  ∀ (x y : Reg) (n : Fin 16) (s : State),
    decodeWord (formatXYF 0xD x y (BitVec.ofNat 4 n.val)) = .ok (.drw x y n) ∧
    (s.params.addrPolicy = .wrap ∨ s.i.toNat + n.val ≤ 4096 ∨ n.val = 0 →
      ∃ t, exec (.drw x y n) s = .next t ∧ t = { s with v := t.v, pend := t.pend, pc := t.pc } ∧
        (∀ a, Mem.read t.mem a = Mem.read s.mem a) ∧ s.regsKeptBut t [vF] ∧ s.pcNext t ∧
        (n.val = 0 → t.pend = s.pend ∧ t.getV vF = 0) ∧
        ∃ rows : List Byte, rows.length = n.val ∧
          (∀ j (h : j < rows.length), rows[j] = Mem.read s.mem ((s.i.toNat + j) % 4096)) ∧
          t.pend = (s.pend.draw (s.getV x) (s.getV y) rows).1 ∧
          (t.getV vF).toNat = if (s.pend.draw (s.getV x) (s.getV y) rows).2 then 1 else 0) ∧
    (s.params.addrPolicy = .fault → 1 ≤ n.val → 4096 ≤ s.i.toNat + n.val - 1 → exec (.drw x y n) s =
      .next { s with fault := some ⟨.badAddress, s.pc, some (formatXYF 0xD x y (BitVec.ofNat 4 n.val))⟩ })

/-- R108 (derived by the spec): drawing the same sprite twice at the same place restores the plane. The collision law of
R107's last corner case holds only where the first draw did not collide (log 23): then the second draw collides exactly
when the sprite covers some pixel of the plane. -/
def Obligations.DrawTwiceRestores : Prop :=
  ∀ (p : Plane) (vx vy : Byte) (rows : List Byte),
    ((p.draw vx vy rows).1.draw vx vy rows).1 = p ∧
    ((p.draw vx vy rows).2 = false →
      (((p.draw vx vy rows).1.draw vx vy rows).2 = true ↔
        ∃ c r, c < 64 ∧ r < 32 ∧ spriteCovers rows (vx.toNat % 64) (vy.toNat % 32) c r = true))

/-- R26, R108: no instruction changes the current plane, and only CLS and DRW change the pending one. -/
def Obligations.PlaneWriters : Prop :=
  ∀ (i : Instr) (s t : State), exec i s = .next t →
    t.cur = s.cur ∧ (t.pend ≠ s.pend → i = .cls ∨ ∃ x y n, i = .drw x y n)

/-! ## Keypad and timers (44_keypad_timer.md) -/

/-- R109, R110, R111. In queue mode SKP and SKNP empty the queue whatever they answer, and the key is pressed iff Vx equals
one of the events; in level mode it is pressed iff Vx is below 16 and its bit of keyDown is set, and the queue keeps its
events. SKP skips iff pressed, SKNP iff not; all else keeps its value. -/
def Obligations.KeyTestResults : Prop :=
  ∀ (x : Reg) (s : State) (pressed : Bool),
    decodeWord (formatXFF 0xE x 0x9E) = .ok (.skp x) ∧
    decodeWord (formatXFF 0xE x 0xA1) = .ok (.sknp x) ∧
    ((s.params.keyMode = .queue → (pressed = true ↔ ∃ k ∈ s.queue, k.toNat = (s.getV x).toNat)) →
     (s.params.keyMode = .level →
       (pressed = true ↔ (s.getV x).toNat < 16 ∧ s.keyDown.getLsbD (s.getV x).toNat = true)) →
      (∃ t, exec (.skp x) s = .next t ∧
        t = { s with queue := if s.params.keyMode = .queue then [] else s.queue, pc := t.pc } ∧
        if pressed then s.pcSkip t else s.pcNext t) ∧
      (∃ t, exec (.sknp x) s = .next t ∧
        t = { s with queue := if s.params.keyMode = .queue then [] else s.queue, pc := t.pc } ∧
        if pressed then s.pcNext t else s.pcSkip t))

/-- R112. With a key event, LD Vx, K takes the oldest one into Vx and leaves the others queued; with none it changes
nothing, and the step of the machine that runs it ends the batch. Model's
choice (log 1): the batch is the model's own field `phase`. -/
def Obligations.KeyWaitResult : Prop :=
  ∀ (x : Reg) (s : State),
    decodeWord (formatXFF 0xF x 0x0A) = .ok (.ldVxK x) ∧
    (∀ k rest, s.queue = k :: rest → ∃ t, exec (.ldVxK x) s = .next t ∧
      t = { s with v := t.v, pc := t.pc, queue := rest } ∧ (∀ a, Mem.read t.mem a = Mem.read s.mem a) ∧
      s.regsKeptBut t [x] ∧ s.pcNext t ∧ (t.getV x).toNat = k.toNat) ∧
    (s.queue = [] → exec (.ldVxK x) s = .next s) ∧
    (∀ left, s.queue = [] → s.phase = .batch (left + 1) → s.fault = none → s.fetch = some (formatXFF 0xF x 0x0A) →
      step s = .next { s with phase := .batch 0 })

/-- R113, R114, R115. LD Vx, DT reads DT; LD DT and LD ST write their timer and restart the shared timestamp at the tick's
time; all else but PC keeps its value. Model's choice (log 14): that time
is the model's own field `now`. -/
def Obligations.TimerAccessResults : Prop :=
  ∀ (x : Reg) (s : State),
    decodeWord (formatXFF 0xF x 0x07) = .ok (.ldVxDT x) ∧
    decodeWord (formatXFF 0xF x 0x15) = .ok (.ldDTVx x) ∧
    decodeWord (formatXFF 0xF x 0x18) = .ok (.ldSTVx x) ∧
    (∃ t, exec (.ldVxDT x) s = .next t ∧ s.onlyRegsAndPc t ∧ s.regsKeptBut t [x] ∧ s.pcNext t ∧ t.getV x = s.dt) ∧
    (∃ t, exec (.ldDTVx x) s = .next t ∧ t = { s with dt := s.getV x, tLast := s.now, pc := t.pc } ∧ s.pcNext t) ∧
    (∃ t, exec (.ldSTVx x) s = .next t ∧ t = { s with st := s.getV x, tLast := s.now, pc := t.pc } ∧ s.pcNext t ∧
      (t.tone = true ↔ (s.getV x).toNat ≠ 0))

/-- R20, R21, R22: of all instructions only Fx15 changes DT, only Fx18 changes ST, and only these two change the
timestamp. -/
def Obligations.TimerWriters : Prop :=
  ∀ (i : Instr) (s t : State), exec i s = .next t →
    (t.dt ≠ s.dt → ∃ x, i = .ldDTVx x) ∧ (t.st ≠ s.st → ∃ x, i = .ldSTVx x) ∧
    (t.tLast ≠ s.tLast → ∃ x, i = .ldDTVx x ∨ i = .ldSTVx x)

/-- R18, R19, R23: of all instructions only CALL and RET change SP, only CALL changes the stack, and only SKP, SKNP and
Fx0A change the key queue. -/
def Obligations.StackAndQueueWriters : Prop :=
  ∀ (i : Instr) (s t : State), exec i s = .next t →
    (t.sp ≠ s.sp → i = .ret ∨ ∃ nnn, i = .call nnn) ∧ (t.stack ≠ s.stack → ∃ nnn, i = .call nnn) ∧
    (t.queue ≠ s.queue → ∃ x, i = .skp x ∨ i = .sknp x ∨ i = .ldVxK x)

/-- R24, R29, R49: no instruction changes the held-key mask, the retained image or its offset; nor (the model's own
fields, log 2 and log 14) the parameters and the time. -/
def Obligations.HostStateUntouchedByInstructions : Prop :=
  ∀ (i : Instr) (s t : State), exec i s = .next t →
    t.keyDown = s.keyDown ∧ t.rom = s.rom ∧ t.romOffset = s.romOffset ∧ t.params = s.params ∧ t.now = s.now

/-! ## Faults (60_exceptions.md) -/

/-- R118, R119. An instruction step that raises a fault changes nothing but the fault status: the record holds the PC of
the instruction and the word fetched there, absent when the fetch itself failed. -/
def Obligations.FaultsArePrecise : Prop :=
  ∀ (s t : State) (f : FaultRecord), s.stepInstruction = .next t → s.fault = none → t.fault = some f →
    t = { s with fault := some f } ∧ f.pc = s.pc ∧ f.opcode = s.fetch

/-- R122. An illegal word raises IllegalInstruction, with nothing else of the block changed. Model's choice (log 1): the step
counts it in the driver's budget, the model's own field `phase`. -/
def Obligations.IllegalWordFaults : Prop :=
  ∀ (s : State) (left : Nat) (w : Word) (e : DecodeError), s.phase = .batch (left + 1) → s.fault = none →
    s.fetch = some w → decodeWord w = .error e →
    step s = .next { s with fault := some ⟨.illegalInstruction, s.pc, some w⟩, phase := .batch left }

/-- R120 (derived by the spec). Under `wrap` no instruction step raises BadAddress. -/
def Obligations.WrapNeverBadAddress : Prop :=
  ∀ (s t : State) (f : FaultRecord), s.params.addrPolicy = .wrap → s.stepInstruction = .next t → t.fault = some f →
    f.kind ≠ .badAddress

/-- R121. Under `fault` an instruction raises BadAddress, with its word and nothing written, exactly as the rule lists: a
fetch at a PC at or above 4095; DRW with n at least 1 and I + n - 1 at or above 4096; Fx33 with I + 2, Fx55 and Fx65
with I + x at or above 4096; no other instruction does. -/
def Obligations.BadAddressConditions : Prop :=
  ∀ (s : State), s.params.addrPolicy = .fault → s.fault = none →
    (s.fetch = none ↔ 4096 ≤ s.pc.toNat + 1) ∧
    (4096 ≤ s.pc.toNat + 1 → s.stepInstruction = .next { s with fault := some ⟨.badAddress, s.pc, none⟩ }) ∧
    (∀ x y n, 1 ≤ n.val → 4096 ≤ s.i.toNat + n.val - 1 →
      exec (.drw x y n) s = .next { s with fault := some ⟨.badAddress, s.pc, some (encode (.drw x y n))⟩ }) ∧
    (∀ x, 4096 ≤ s.i.toNat + 2 →
      exec (.ldBVx x) s = .next { s with fault := some ⟨.badAddress, s.pc, some (encode (.ldBVx x))⟩ }) ∧
    (∀ x : Reg, 4096 ≤ s.i.toNat + x.val →
      exec (.ldMemVx x) s = .next { s with fault := some ⟨.badAddress, s.pc, some (encode (.ldMemVx x))⟩ } ∧
      exec (.ldVxMem x) s = .next { s with fault := some ⟨.badAddress, s.pc, some (encode (.ldVxMem x))⟩ }) ∧
    (∀ i t f, exec i s = .next t → t.fault = some f → f.kind = .badAddress →
      (∃ x y n, i = .drw x y n ∧ 1 ≤ n.val ∧ 4096 ≤ s.i.toNat + n.val - 1) ∨
      (∃ x, i = .ldBVx x ∧ 4096 ≤ s.i.toNat + 2) ∨
      (∃ x, (i = .ldMemVx x ∨ i = .ldVxMem x) ∧ 4096 ≤ s.i.toNat + x.val))

/-- R124, R139: while a fault stands, no step of the machine executes an instruction or clears it; only the host's reset
clears it. A load that fails may replace the record (R145; log 12). Model's choice: `phase` and `inbox`, which say when
the reset is taken (log 1), and the counter `draws` (log 4) are the model's own fields. -/
def Obligations.HaltedUntilReset : Prop :=
  ∀ (s t : State), s.fault ≠ none → step s = .next t →
    (∃ r rest, s.phase = .idle ∧ s.inbox = .reset r :: rest ∧ t.fault = none ∧ t.pc = 0x200) ∨
    (t.fault ≠ none ∧ t.v = s.v ∧ t.i = s.i ∧ t.pc = s.pc ∧ t.sp = s.sp ∧ t.stack = s.stack ∧ t.pend = s.pend ∧
      t.draws = s.draws)

/-- R149 (derived by the spec): under `wrap`, this hardware's ADDR_POLICY, the zero word jumps to address 0, where the font
word F090 is illegal. Model's choice (log 1): the two steps are taken from the budget in the model's own field `phase`. -/
def Obligations.ZeroWordRunsIntoTheFont : Prop :=
  ∀ (s : State) (left : Nat), s.params.addrPolicy = .wrap → s.mem.fontIntact → s.phase = .batch (left + 2) →
    s.fault = none → s.fetch = some 0 →
    Sys2Proof.core.run 2 s =
      .next { s with pc := 0, fault := some ⟨.illegalInstruction, 0, some 0xF090⟩, phase := .batch left }

/-! ## Timer unit, key queue, tick (60_exceptions.md) -/

/-- R127. A timer update at `now` takes min(value, k) from each timer, k the whole periods since the timestamp (0 if `now`
is below the timestamp), and moves the timestamp by k periods; nothing else changes. It runs once per tick, in
the step that ends the tick, whether the budget is spent, the batch ended on Wait, or a fault stands (R119, R137, R139).
Model's choice: the tick's time is the model's own field `now` (log 14) and the batch its own field `phase` (log 1). -/
def Obligations.TimerUpdateResult : Prop :=
  ∀ (s : State) (now k : Nat), k = (now - s.tLast) / (s.params.clockHz / 60) →
    ∃ t, s.timerUpdate now = t ∧ t = { s with dt := t.dt, st := t.st, tLast := t.tLast } ∧
      t.dt.toNat = s.dt.toNat - min s.dt.toNat k ∧ t.st.toNat = s.st.toNat - min s.st.toNat k ∧
      t.tLast = s.tLast + k * (s.params.clockHz / 60) ∧
      (∀ left, s.phase = .batch left → left = 0 ∨ s.fault ≠ none → s.now = now →
        step s = .next { t with cur := s.pend, phase := .idle })

/-- R128 (its law over ticks). An update in between changes nothing in the end, and from an update at `a` to one at `b`
each timer decreases by min(value, periods from the timestamp to `b` minus periods from the timestamp to `a`). -/
def Obligations.TimerUpdatesCompose : Prop :=
  ∀ (s : State) (a b : Nat), s.tLast ≤ a → a ≤ b → s.params.wf →
    (s.timerUpdate a).timerUpdate b = s.timerUpdate b ∧
    (s.timerUpdate b).dt.toNat = (s.timerUpdate a).dt.toNat - min (s.timerUpdate a).dt.toNat
      ((b - s.tLast) / (s.params.clockHz / 60) - (a - s.tLast) / (s.params.clockHz / 60)) ∧
    (s.timerUpdate b).st.toNat = (s.timerUpdate a).st.toNat - min (s.timerUpdate a).st.toNat
      ((b - s.tLast) / (s.params.clockHz / 60) - (a - s.tLast) / (s.params.clockHz / 60))

/-- R128: in every step of the machine DT grows only by an Fx15 at PC and ST only by an Fx18 at PC. -/
def Obligations.TimersNeverIncrease : Prop :=
  ∀ (s t : State), step s = .next t →
    (s.dt.toNat < t.dt.toNat → ∃ w x, s.fetch = some w ∧ decodeWord w = .ok (.ldDTVx x)) ∧
    (s.st.toNat < t.st.toNat → ∃ w x, s.fetch = some w ∧ decodeWord w = .ok (.ldSTVx x))

/-- R130, R131, R132. A push into a queue below its capacity appends the key; into a full queue it first drops the oldest
event; a pop removes and answers the oldest and answers none on an empty queue; a drain answers all and empties. -/
def Obligations.KeyQueueLaws : Prop :=
  ∀ (s : State) (k : Key),
    (s.queue.length ≠ s.params.keyqCap → s.keyPush k = { s with queue := s.queue ++ [k] }) ∧
    (∀ old rest, s.queue = old :: rest → s.queue.length = s.params.keyqCap →
      s.keyPush k = { s with queue := rest ++ [k] }) ∧
    (∀ old rest, s.queue = old :: rest → s.keyPop = some (old, { s with queue := rest })) ∧
    (s.queue = [] → s.keyPop = none ∧
      (s.keyPush k).keyPop = some (k, s)) ∧
    s.keyDrain = (s.queue, { s with queue := [] })

/-- R137 (its start), R133. The step that takes a tick stores the time, pushes the keys in order, stores the held mask in
level mode only, and opens a batch of IPF instruction steps; nothing else changes, halted or not. A smaller time than the
last operation's is refused (R136; StepsNeverStop). Model's choice: `phase` and `inbox` (log 1) and `now` (log 14) are the
model's own fields. -/
def Obligations.TickStartResult : Prop :=
  ∀ (s : State) (t : Nat) (keys : List Key) (kd : BitVec 16) (rest : List HostOp),
    s.phase = .idle → s.inbox = .tick t keys kd :: rest → s.now ≤ t →
    step s = .next { s with
      now := t
      queue := (keys.foldl State.keyPush s).queue
      keyDown := if s.params.keyMode = .level then kd else s.keyDown
      phase := .batch s.params.ipf
      inbox := rest }

/-- R137. From an idle block whose oldest host operation is a tick, the steps of the machine reach, within IPF + 2 steps,
exactly the outcome of the tick written as one operation, be it a next state or, at a smaller time than the last
operation's (I25; log 24), refused. Model's choice: a step of the machine is one instruction, the start or the end of the
tick, and `phase` and `inbox` are the model's own fields (log 1), as is `now` (log 14). -/
def Obligations.StepsRefineTheTick : Prop :=
  ∀ (s : State) (t : Nat) (keys : List Key) (kd : BitVec 16) (rest : List HostOp),
    s.phase = .idle → s.inbox = .tick t keys kd :: rest →
    ∃ n ≤ s.params.ipf + 2, Sys2Proof.core.run n s = ({ s with inbox := rest } : State).tick t keys kd

/-- R136, R137, R138, R139. A tick at a time not below the last operation's always completes; afterwards the block is idle
and the current plane is the pending one; and in a halted block it runs no instruction but still pushes the keys, updates
the timers and presents. A smaller time is refused, as I25 rules (log 24). Model's choice: that the block is idle is said
by the model's own field `phase` (log 1), and the time stands in its own field `now` (log 14). -/
def Obligations.TickCompletes : Prop :=
  ∀ (s : State) (t : Nat) (keys : List Key) (kd : BitVec 16),
    (s.now ≤ t → ∃ u, s.tick t keys kd = .next u ∧ u.phase = .idle ∧ u.cur = u.pend ∧ u.now = t ∧
      (s.fault ≠ none → u = (s.beginTick t keys kd).endTick)) ∧
    (t < s.now → s.tick t keys kd = .refused .timeBackwards)

/-! ## Load and reset (70_reset_and_hazards.md) -/

/-- R144, R145. The step that takes a load from the host, at a time not below the last operation's: a load outside the
host's contract is refused; one that fits writes the image at its offset, keeps it with its offset and changes nothing else
of the block; one that does not fit writes nothing and sets the fault ProgramTooLarge with PC and no opcode. A load at a
smaller time is refused (R136; StepsNeverStop). Model's choice: `phase` and `inbox` (log 1) and `now`, which takes the time
of the load (log 14), are the model's own fields. -/
def Obligations.LoadResult : Prop :=
  ∀ (s : State) (image : List Byte) (offset t : Nat) (rest : List HostOp), s.mem.wf → s.phase = .idle →
    s.inbox = .load image offset t :: rest → s.now ≤ t →
    (offset < 80 ∨ 4096 < offset → step s = .refused .loadOffset) ∧
    (80 ≤ offset → offset ≤ 4096 → image.length ≤ 4096 - offset →
      ∃ u, step s = .next u ∧
        u = { s with mem := u.mem, rom := image, romOffset := offset, now := t, inbox := rest } ∧ u.mem.wf ∧
        (∀ j (h : j < image.length), Mem.read u.mem (offset + j) = image[j]) ∧
        (∀ a, (a < offset ∨ offset + image.length ≤ a) → Mem.read u.mem a = Mem.read s.mem a)) ∧
    (80 ≤ offset → offset ≤ 4096 → 4096 - offset < image.length →
      step s = .next { s with now := t, inbox := rest, fault := some ⟨.programTooLarge, s.pc, none⟩ })

/-- R146, R31. What power-on construction at time t leaves, with any parameters. Model's choice: keyDown is 0 in queue mode
too, where the spec has no such state (log 22). -/
def Obligations.PowerOnState : Prop :=
  ∀ (p : Params) (t : Nat),
    (∀ x, (State.powerOn p t).getV x = 0) ∧ (State.powerOn p t).i = 0 ∧ (State.powerOn p t).pc = 0x200 ∧
    (State.powerOn p t).sp = 0 ∧ (∀ j (h : j < 16), (State.powerOn p t).stack[j] = 0) ∧
    (State.powerOn p t).dt = 0 ∧ (State.powerOn p t).st = 0 ∧ (State.powerOn p t).tLast = t ∧
    (State.powerOn p t).queue = [] ∧ (State.powerOn p t).keyDown = 0 ∧
    (∀ c r, (State.powerOn p t).pend.pixel c r = false ∧ (State.powerOn p t).cur.pixel c r = false) ∧
    (State.powerOn p t).fault = none ∧ (State.powerOn p t).rom = [] ∧ (State.powerOn p t).romOffset = 0x200 ∧
    (∀ (d : Fin 16) (j : Nat) (h : j < (glyphRows d).length),
      Mem.read (State.powerOn p t).mem (5 * d.val + j) = (glyphRows d)[j]) ∧
    (∀ a, 80 ≤ a → Mem.read (State.powerOn p t).mem a = 0)

/-- R147. What a reset at time t leaves, in every register, plane and byte of memory; the retained image and its offset stay.
A smaller time than the last operation's is refused (R136; StepsNeverStop). Model's choice: `phase` and `inbox` (log 1),
`params` (log 2) and `now` (log 14) are the model's own fields, and keyDown is 0 in queue mode too, where the spec has no
such state (log 22). -/
def Obligations.ResetResult : Prop :=
  ∀ (s : State) (t : Nat) (rest : List HostOp), s.mem.wf → s.romFits → s.phase = .idle → s.inbox = .reset t :: rest →
    s.now ≤ t →
    ∃ u, step s = .next u ∧
      (∀ x, u.getV x = 0) ∧ u.i = 0 ∧ u.pc = 0x200 ∧ u.sp = 0 ∧ (∀ j (h : j < 16), u.stack[j] = 0) ∧
      u.dt = 0 ∧ u.st = 0 ∧ u.tLast = t ∧ u.queue = [] ∧ u.keyDown = 0 ∧
      (∀ c r, u.pend.pixel c r = false ∧ u.cur.pixel c r = false) ∧ u.fault = none ∧
      u.rom = s.rom ∧ u.romOffset = s.romOffset ∧ u.params = s.params ∧ u.phase = .idle ∧ u.inbox = rest ∧
      (∀ j (h : j < s.rom.length), Mem.read u.mem (s.romOffset + j) = s.rom[j]) ∧
      (∀ a, a < 80 → Mem.read u.mem a = Mem.unlisted a) ∧
      (∀ a, 80 ≤ a → (a < s.romOffset ∨ s.romOffset + s.rom.length ≤ a) →
        Mem.read u.mem a = if s.params.resetRam = .preserve then Mem.read s.mem a else 0)

/-! ## The invariant -/

/-- Every step of the machine keeps the invariant: memory canonical (log 5), the font intact (R39), the key queue within its
capacity (R23), the retained image in range (R144), the timestamp not past the time of the last operation (R127, R136).
Model's choice: the parameters in range stand in the model's own field `params` (log 2), keyDown is 0 in queue mode, where
R24 gives the block no such state (log 22), `cur == pend` between ticks (R138) and a budget within IPF are said by its own
field `phase` (log 1), and the time of the last operation by its own field `now` (log 14). -/
def Obligations.StepKeepsInv : Prop := ∀ s t : State, s.Inv → step s = .next t → t.Inv

/-- The invariant holds in `State.reset`, which is the power-on of this hardware at time 0 (log 3), and in every power-on
state with parameters in range. Model's choice: its conjuncts on `params` (log 2), on keyDown in queue mode (log 22), on
`phase` (log 1) and on `now` (log 14) are about the model's own fields, as is the canonical form of memory (log 5). -/
def Obligations.ResetHasInv : Prop :=
  State.reset.Inv ∧ ∀ (p : Params) (t : Nat), p.wf → (State.powerOn p t).Inv

/-- No step stops with a fault of the model, and the only refusals are a load outside the host's contract (R144) and a host
operation at a time below that of the one before it (R136, refused as I25 says; log 24), which is refused always; so the
time never goes back. No step changes the parameters. Model's choice: `params` (log 2), `phase` and `inbox` (log 1) and
`now` (log 14) are the model's own fields. -/
def Obligations.StepsNeverStop : Prop :=
  ∀ s : State,
    (∀ t, step s = .next t → t.params = s.params ∧ s.now ≤ t.now) ∧
    (∀ f, step s ≠ .fault f) ∧
    (∀ op rest, s.phase = .idle → s.inbox = op :: rest → op.time < s.now → step s = .refused .timeBackwards) ∧
    (∀ r, step s = .refused r → ∃ op rest, s.phase = .idle ∧ s.inbox = op :: rest ∧
      ((r = .timeBackwards ∧ op.time < s.now) ∨
       (r = .loadOffset ∧ ∃ image offset t, op = .load image offset t ∧ (offset < 80 ∨ 4096 < offset))))
end

