-- ==== Sys2Proof/Laws/Memory.lean ====
section
/-! SUPPORT. The laws of the memory list: read after write, and that every operation keeps the canonical form. -/

namespace Sys2Proof.Machine

/-- The addresses of a list rise strictly: the first half of `Mem.wf`, which the read laws need. -/
abbrev Mem.sorted (m : Mem) : Prop := m.Pairwise (fun c d => c.1 < d.1)

theorem Mem.mem_cells {a : Nat} {v : Byte} {c : Host.Cell} :
    c ∈ Mem.cells a v ↔ c = (a, v) ∧ v ≠ Mem.unlisted a := by
  unfold Mem.cells
  split <;> simp_all

theorem Mem.read_cells_append_self {a : Nat} {v : Byte} {m : Mem} (hm : ∀ c ∈ m, a < c.1) :
    Mem.read (Mem.cells a v ++ m) a = v := by
  have hr : ∀ m : Mem, (∀ c ∈ m, a < c.1) → Mem.read m a = Mem.unlisted a := by
    intro m hm
    induction m with
    | nil => rfl
    | cons c rest ih =>
      have hc := hm c (by simp)
      simp only [Mem.read]
      rw [if_neg (by omega)]
      exact ih fun d hd => hm d (by simp [hd])
  unfold Mem.cells
  split
  · next h => simpa [h] using hr m hm
  · simp [Mem.read]

theorem Mem.read_cells_append_ne {a b : Nat} {v : Byte} (m : Mem) (h : a ≠ b) :
    Mem.read (Mem.cells a v ++ m) b = Mem.read m b := by
  unfold Mem.cells
  split <;> simp [Mem.read, h]

/-- A read after a write to the same address gives the byte written. -/
theorem Mem.read_write_self {m : Mem} (hs : m.sorted) (a : Nat) (v : Byte) :
    Mem.read (Mem.write m a v) a = v := by
  induction m with
  | nil => simpa [Mem.write] using Mem.read_cells_append_self (a := a) (v := v) (m := []) (by simp)
  | cons c rest ih =>
    obtain ⟨hc, hrest⟩ := List.pairwise_cons.mp hs
    simp only [Mem.write]
    split
    · simp only [Mem.read]
      rw [if_neg (by omega)]
      exact ih hrest
    · split
      · exact Mem.read_cells_append_self fun d hd => by have := hc d hd; omega
      · refine Mem.read_cells_append_self fun d hd => ?_
        rcases List.mem_cons.mp hd with rfl | hd
        · omega
        · have := hc d hd
          omega

/-- A write leaves every other address alone. -/
theorem Mem.read_write_ne (m : Mem) {a b : Nat} (v : Byte) (h : a ≠ b) :
    Mem.read (Mem.write m a v) b = Mem.read m b := by
  induction m with
  | nil => simpa [Mem.write] using Mem.read_cells_append_ne (v := v) [] h
  | cons c rest ih =>
    simp only [Mem.write]
    split
    · simp only [Mem.read, ih]
    · split
      · next hk =>
        rw [Mem.read_cells_append_ne _ h]
        simp only [Mem.read]
        rw [if_neg (by omega)]
      · rw [Mem.read_cells_append_ne _ h]

/-- What the cells of a list after a write are: the written one, or cells that were there. -/
theorem Mem.mem_write {m : Mem} {a : Nat} {v : Byte} {c : Host.Cell} (h : c ∈ Mem.write m a v) :
    (c = (a, v) ∧ v ≠ Mem.unlisted a) ∨ c ∈ m := by
  induction m with
  | nil => exact .inl (Mem.mem_cells.mp h)
  | cons d rest ih =>
    simp only [Mem.write] at h
    split at h
    · rcases List.mem_cons.mp h with rfl | h
      · exact .inr (by simp)
      · rcases ih h with h | h
        · exact .inl h
        · exact .inr (by simp [h])
    · split at h
      · rcases List.mem_append.mp h with h | h
        · exact .inl (Mem.mem_cells.mp h)
        · exact .inr (by simp [h])
      · rcases List.mem_append.mp h with h | h
        · exact .inl (Mem.mem_cells.mp h)
        · exact .inr h

theorem Mem.write_sorted {m : Mem} (hs : m.sorted) (a : Nat) (v : Byte) : (Mem.write m a v).sorted := by
  induction m with
  | nil => simp only [Mem.write, Mem.cells]; split <;> simp [Mem.sorted]
  | cons d rest ih =>
    obtain ⟨hd, hrest⟩ := List.pairwise_cons.mp hs
    simp only [Mem.write]
    split
    · refine List.pairwise_cons.mpr ⟨fun c hc => ?_, ih hrest⟩
      rcases Mem.mem_write hc with ⟨rfl, -⟩ | hc
      · assumption
      · exact hd c hc
    · have key : ∀ m : Mem, m.sorted → (∀ c ∈ m, a < c.1) → (Mem.cells a v ++ m).sorted := by
        intro m hm ha
        unfold Mem.cells
        split
        · simpa using hm
        · exact List.pairwise_cons.mpr ⟨fun c hc => ha c hc, hm⟩
      split
      · exact key rest hrest fun c hc => by have := hd c hc; omega
      · refine key _ hs fun c hc => ?_
        rcases List.mem_cons.mp hc with rfl | hc
        · omega
        · have := hd c hc
          omega

/-- A write inside the memory keeps the canonical form. -/
theorem Mem.write_wf {m : Mem} (h : m.wf) {a : Nat} (ha : a < memSize) (v : Byte) : (Mem.write m a v).wf := by
  refine ⟨Mem.write_sorted h.1 a v, fun c hc => ?_⟩
  rcases Mem.mem_write hc with ⟨rfl, hv⟩ | hc
  · exact ⟨ha, hv⟩
  · exact h.2 c hc

/-- The direct write of load and reset keeps the canonical form. -/
theorem Mem.writeAll_wf (bytes : List Byte) : ∀ {m : Mem} {a : Nat}, m.wf → a + bytes.length ≤ memSize →
    (Mem.writeAll m a bytes).wf := by
  induction bytes with
  | nil => intro m a h _; exact h
  | cons b bs ih =>
    intro m a h ha
    simp only [List.length_cons] at ha
    exact ih (Mem.write_wf h (by omega) b) (by omega)

/-- The direct write reads back, and leaves every other address alone. -/
theorem Mem.read_writeAll (bytes : List Byte) : ∀ {m : Mem} {a : Nat}, m.sorted → ∀ b,
    Mem.read (Mem.writeAll m a bytes) b =
      if h : a ≤ b ∧ b < a + bytes.length then bytes[b - a]'(by omega) else Mem.read m b := by
  induction bytes with
  | nil => intro m a _ b; simp [Mem.writeAll]
  | cons x xs ih =>
    intro m a hs b
    simp only [Mem.writeAll]
    rw [ih (Mem.write_sorted hs a x) b]
    by_cases hb : a + 1 ≤ b ∧ b < a + 1 + xs.length
    · rw [dif_pos hb, dif_pos (by simp only [List.length_cons]; omega)]
      obtain ⟨k, hk⟩ : ∃ k, b - a = k + 1 := ⟨b - a - 1, by omega⟩
      have hk' : b - (a + 1) = k := by omega
      simp only [hk, hk', List.getElem_cons_succ]
    · rw [dif_neg hb]
      by_cases hab : a = b
      · subst hab
        rw [Mem.read_write_self hs, dif_pos (by simp)]
        simp
      · rw [Mem.read_write_ne m x hab, dif_neg (by simp only [List.length_cons]; omega)]

theorem Mem.filter_wf {m : Mem} (h : m.wf) (p : Host.Cell → Bool) : Mem.wf (m.filter p) :=
  ⟨h.1.filter p, fun c hc => h.2 c (List.mem_filter.mp hc).1⟩

theorem Mem.restoreFont_wf {m : Mem} (h : m.wf) : m.restoreFont.wf := Mem.filter_wf h _

theorem Mem.clearRam_wf {m : Mem} (h : m.wf) : m.clearRam.wf := Mem.filter_wf h _

/-- A read of a filtered list, where the filter looks at the address only. -/
theorem Mem.read_filter (m : Mem) (p : Nat → Bool) (a : Nat) :
    Mem.read (m.filter fun c => p c.1) a = if p a then Mem.read m a else Mem.unlisted a := by
  induction m with
  | nil => simp [Mem.read]
  | cons c rest ih =>
    by_cases hc : p c.1
    · simp only [List.filter_cons, hc, if_true, Mem.read, ih]
      by_cases hk : c.1 = a
      · subst hk; simp [hc]
      · simp [hk]
    · simp only [List.filter_cons, hc, Mem.read]
      by_cases hk : c.1 = a
      · subst hk; simpa [hc] using ih
      · simpa [hk] using ih

theorem Mem.read_restoreFont (m : Mem) (a : Nat) :
    Mem.read m.restoreFont a = if fontSize ≤ a then Mem.read m a else Mem.unlisted a := by
  simpa [Mem.restoreFont] using Mem.read_filter m (fun k => decide (fontSize ≤ k)) a

theorem Mem.read_clearRam (m : Mem) (a : Nat) :
    Mem.read m.clearRam a = if a < fontSize then Mem.read m a else Mem.unlisted a := by
  simpa [Mem.clearRam] using Mem.read_filter m (fun k => decide (k < fontSize)) a

/-- Outside the font region an unlisted address reads as 0 (R146). -/
theorem Mem.unlisted_ram {a : Nat} (h : fontSize ≤ a) : Mem.unlisted a = 0 := by
  have hl : fontTable.length = 80 := by decide
  simp only [fontSize] at h
  rw [Mem.unlisted, List.getD_eq_getElem?_getD, List.getElem?_eq_none (by omega)]
  rfl

theorem Mem.reset_wf : State.reset.mem.wf := by
  simp [State.reset, State.powerOn, Mem.wf]

end Sys2Proof.Machine
end

