-- ==== Sys2Proof/Laws/State.lean ====
section
/-! SUPPORT. One lemma per field per update of State, each true by rfl, so that no later proof unfolds a record update. -/

namespace Sys2Proof.Machine

variable (s : State)

@[simp] theorem State.setV_v (x : Reg) (b : Byte) : (s.setV x b).v = s.v.set x.val b := rfl
@[simp] theorem State.setV_i (x : Reg) (b : Byte) : (s.setV x b).i = s.i := rfl
@[simp] theorem State.setV_pc (x : Reg) (b : Byte) : (s.setV x b).pc = s.pc := rfl
@[simp] theorem State.setV_stack (x : Reg) (b : Byte) : (s.setV x b).stack = s.stack := rfl
@[simp] theorem State.setV_sp (x : Reg) (b : Byte) : (s.setV x b).sp = s.sp := rfl
@[simp] theorem State.setV_dt (x : Reg) (b : Byte) : (s.setV x b).dt = s.dt := rfl
@[simp] theorem State.setV_st (x : Reg) (b : Byte) : (s.setV x b).st = s.st := rfl
@[simp] theorem State.setV_tLast (x : Reg) (b : Byte) : (s.setV x b).tLast = s.tLast := rfl
@[simp] theorem State.setV_queue (x : Reg) (b : Byte) : (s.setV x b).queue = s.queue := rfl
@[simp] theorem State.setV_keyDown (x : Reg) (b : Byte) : (s.setV x b).keyDown = s.keyDown := rfl
@[simp] theorem State.setV_pend (x : Reg) (b : Byte) : (s.setV x b).pend = s.pend := rfl
@[simp] theorem State.setV_cur (x : Reg) (b : Byte) : (s.setV x b).cur = s.cur := rfl
@[simp] theorem State.setV_fault (x : Reg) (b : Byte) : (s.setV x b).fault = s.fault := rfl
@[simp] theorem State.setV_rom (x : Reg) (b : Byte) : (s.setV x b).rom = s.rom := rfl
@[simp] theorem State.setV_romOffset (x : Reg) (b : Byte) : (s.setV x b).romOffset = s.romOffset := rfl
@[simp] theorem State.setV_mem (x : Reg) (b : Byte) : (s.setV x b).mem = s.mem := rfl
@[simp] theorem State.setV_params (x : Reg) (b : Byte) : (s.setV x b).params = s.params := rfl
@[simp] theorem State.setV_now (x : Reg) (b : Byte) : (s.setV x b).now = s.now := rfl
@[simp] theorem State.setV_draws (x : Reg) (b : Byte) : (s.setV x b).draws = s.draws := rfl
@[simp] theorem State.setV_phase (x : Reg) (b : Byte) : (s.setV x b).phase = s.phase := rfl
@[simp] theorem State.setV_inbox (x : Reg) (b : Byte) : (s.setV x b).inbox = s.inbox := rfl

@[simp] theorem State.setI_v (w : Word) : (s.setI w).v = s.v := rfl
@[simp] theorem State.setI_i (w : Word) : (s.setI w).i = w := rfl
@[simp] theorem State.setI_pc (w : Word) : (s.setI w).pc = s.pc := rfl
@[simp] theorem State.setI_stack (w : Word) : (s.setI w).stack = s.stack := rfl
@[simp] theorem State.setI_sp (w : Word) : (s.setI w).sp = s.sp := rfl
@[simp] theorem State.setI_dt (w : Word) : (s.setI w).dt = s.dt := rfl
@[simp] theorem State.setI_st (w : Word) : (s.setI w).st = s.st := rfl
@[simp] theorem State.setI_tLast (w : Word) : (s.setI w).tLast = s.tLast := rfl
@[simp] theorem State.setI_queue (w : Word) : (s.setI w).queue = s.queue := rfl
@[simp] theorem State.setI_keyDown (w : Word) : (s.setI w).keyDown = s.keyDown := rfl
@[simp] theorem State.setI_pend (w : Word) : (s.setI w).pend = s.pend := rfl
@[simp] theorem State.setI_cur (w : Word) : (s.setI w).cur = s.cur := rfl
@[simp] theorem State.setI_fault (w : Word) : (s.setI w).fault = s.fault := rfl
@[simp] theorem State.setI_rom (w : Word) : (s.setI w).rom = s.rom := rfl
@[simp] theorem State.setI_romOffset (w : Word) : (s.setI w).romOffset = s.romOffset := rfl
@[simp] theorem State.setI_mem (w : Word) : (s.setI w).mem = s.mem := rfl
@[simp] theorem State.setI_params (w : Word) : (s.setI w).params = s.params := rfl
@[simp] theorem State.setI_now (w : Word) : (s.setI w).now = s.now := rfl
@[simp] theorem State.setI_draws (w : Word) : (s.setI w).draws = s.draws := rfl
@[simp] theorem State.setI_phase (w : Word) : (s.setI w).phase = s.phase := rfl
@[simp] theorem State.setI_inbox (w : Word) : (s.setI w).inbox = s.inbox := rfl

@[simp] theorem State.goNext_v : s.goNext.v = s.v := rfl
@[simp] theorem State.goNext_i : s.goNext.i = s.i := rfl
@[simp] theorem State.goNext_pc : s.goNext.pc = s.pc + 2 := rfl
@[simp] theorem State.goNext_stack : s.goNext.stack = s.stack := rfl
@[simp] theorem State.goNext_sp : s.goNext.sp = s.sp := rfl
@[simp] theorem State.goNext_dt : s.goNext.dt = s.dt := rfl
@[simp] theorem State.goNext_st : s.goNext.st = s.st := rfl
@[simp] theorem State.goNext_tLast : s.goNext.tLast = s.tLast := rfl
@[simp] theorem State.goNext_queue : s.goNext.queue = s.queue := rfl
@[simp] theorem State.goNext_keyDown : s.goNext.keyDown = s.keyDown := rfl
@[simp] theorem State.goNext_pend : s.goNext.pend = s.pend := rfl
@[simp] theorem State.goNext_cur : s.goNext.cur = s.cur := rfl
@[simp] theorem State.goNext_fault : s.goNext.fault = s.fault := rfl
@[simp] theorem State.goNext_rom : s.goNext.rom = s.rom := rfl
@[simp] theorem State.goNext_romOffset : s.goNext.romOffset = s.romOffset := rfl
@[simp] theorem State.goNext_mem : s.goNext.mem = s.mem := rfl
@[simp] theorem State.goNext_params : s.goNext.params = s.params := rfl
@[simp] theorem State.goNext_now : s.goNext.now = s.now := rfl
@[simp] theorem State.goNext_draws : s.goNext.draws = s.draws := rfl
@[simp] theorem State.goNext_phase : s.goNext.phase = s.phase := rfl
@[simp] theorem State.goNext_inbox : s.goNext.inbox = s.inbox := rfl

@[simp] theorem State.goSkip_v : s.goSkip.v = s.v := rfl
@[simp] theorem State.goSkip_i : s.goSkip.i = s.i := rfl
@[simp] theorem State.goSkip_pc : s.goSkip.pc = s.pc + 4 := rfl
@[simp] theorem State.goSkip_stack : s.goSkip.stack = s.stack := rfl
@[simp] theorem State.goSkip_sp : s.goSkip.sp = s.sp := rfl
@[simp] theorem State.goSkip_dt : s.goSkip.dt = s.dt := rfl
@[simp] theorem State.goSkip_st : s.goSkip.st = s.st := rfl
@[simp] theorem State.goSkip_tLast : s.goSkip.tLast = s.tLast := rfl
@[simp] theorem State.goSkip_queue : s.goSkip.queue = s.queue := rfl
@[simp] theorem State.goSkip_keyDown : s.goSkip.keyDown = s.keyDown := rfl
@[simp] theorem State.goSkip_pend : s.goSkip.pend = s.pend := rfl
@[simp] theorem State.goSkip_cur : s.goSkip.cur = s.cur := rfl
@[simp] theorem State.goSkip_fault : s.goSkip.fault = s.fault := rfl
@[simp] theorem State.goSkip_rom : s.goSkip.rom = s.rom := rfl
@[simp] theorem State.goSkip_romOffset : s.goSkip.romOffset = s.romOffset := rfl
@[simp] theorem State.goSkip_mem : s.goSkip.mem = s.mem := rfl
@[simp] theorem State.goSkip_params : s.goSkip.params = s.params := rfl
@[simp] theorem State.goSkip_now : s.goSkip.now = s.now := rfl
@[simp] theorem State.goSkip_draws : s.goSkip.draws = s.draws := rfl
@[simp] theorem State.goSkip_phase : s.goSkip.phase = s.phase := rfl
@[simp] theorem State.goSkip_inbox : s.goSkip.inbox = s.inbox := rfl

@[simp] theorem State.goJump_v (a : Nat) : (s.goJump a).v = s.v := rfl
@[simp] theorem State.goJump_i (a : Nat) : (s.goJump a).i = s.i := rfl
@[simp] theorem State.goJump_pc (a : Nat) : (s.goJump a).pc = BitVec.ofNat 16 a := rfl
@[simp] theorem State.goJump_stack (a : Nat) : (s.goJump a).stack = s.stack := rfl
@[simp] theorem State.goJump_sp (a : Nat) : (s.goJump a).sp = s.sp := rfl
@[simp] theorem State.goJump_dt (a : Nat) : (s.goJump a).dt = s.dt := rfl
@[simp] theorem State.goJump_st (a : Nat) : (s.goJump a).st = s.st := rfl
@[simp] theorem State.goJump_tLast (a : Nat) : (s.goJump a).tLast = s.tLast := rfl
@[simp] theorem State.goJump_queue (a : Nat) : (s.goJump a).queue = s.queue := rfl
@[simp] theorem State.goJump_keyDown (a : Nat) : (s.goJump a).keyDown = s.keyDown := rfl
@[simp] theorem State.goJump_pend (a : Nat) : (s.goJump a).pend = s.pend := rfl
@[simp] theorem State.goJump_cur (a : Nat) : (s.goJump a).cur = s.cur := rfl
@[simp] theorem State.goJump_fault (a : Nat) : (s.goJump a).fault = s.fault := rfl
@[simp] theorem State.goJump_rom (a : Nat) : (s.goJump a).rom = s.rom := rfl
@[simp] theorem State.goJump_romOffset (a : Nat) : (s.goJump a).romOffset = s.romOffset := rfl
@[simp] theorem State.goJump_mem (a : Nat) : (s.goJump a).mem = s.mem := rfl
@[simp] theorem State.goJump_params (a : Nat) : (s.goJump a).params = s.params := rfl
@[simp] theorem State.goJump_now (a : Nat) : (s.goJump a).now = s.now := rfl
@[simp] theorem State.goJump_draws (a : Nat) : (s.goJump a).draws = s.draws := rfl
@[simp] theorem State.goJump_phase (a : Nat) : (s.goJump a).phase = s.phase := rfl
@[simp] theorem State.goJump_inbox (a : Nat) : (s.goJump a).inbox = s.inbox := rfl

@[simp] theorem State.goWait_v : s.goWait.v = s.v := rfl
@[simp] theorem State.goWait_i : s.goWait.i = s.i := rfl
@[simp] theorem State.goWait_pc : s.goWait.pc = s.pc := rfl
@[simp] theorem State.goWait_stack : s.goWait.stack = s.stack := rfl
@[simp] theorem State.goWait_sp : s.goWait.sp = s.sp := rfl
@[simp] theorem State.goWait_dt : s.goWait.dt = s.dt := rfl
@[simp] theorem State.goWait_st : s.goWait.st = s.st := rfl
@[simp] theorem State.goWait_tLast : s.goWait.tLast = s.tLast := rfl
@[simp] theorem State.goWait_queue : s.goWait.queue = s.queue := rfl
@[simp] theorem State.goWait_keyDown : s.goWait.keyDown = s.keyDown := rfl
@[simp] theorem State.goWait_pend : s.goWait.pend = s.pend := rfl
@[simp] theorem State.goWait_cur : s.goWait.cur = s.cur := rfl
@[simp] theorem State.goWait_fault : s.goWait.fault = s.fault := rfl
@[simp] theorem State.goWait_rom : s.goWait.rom = s.rom := rfl
@[simp] theorem State.goWait_romOffset : s.goWait.romOffset = s.romOffset := rfl
@[simp] theorem State.goWait_mem : s.goWait.mem = s.mem := rfl
@[simp] theorem State.goWait_params : s.goWait.params = s.params := rfl
@[simp] theorem State.goWait_now : s.goWait.now = s.now := rfl
@[simp] theorem State.goWait_draws : s.goWait.draws = s.draws := rfl
@[simp] theorem State.goWait_phase : s.goWait.phase = s.phase := rfl
@[simp] theorem State.goWait_inbox : s.goWait.inbox = s.inbox := rfl

@[simp] theorem State.raiseFault_v (k : FaultKind) (o : Option Word) : (s.raiseFault k o).v = s.v := rfl
@[simp] theorem State.raiseFault_i (k : FaultKind) (o : Option Word) : (s.raiseFault k o).i = s.i := rfl
@[simp] theorem State.raiseFault_pc (k : FaultKind) (o : Option Word) : (s.raiseFault k o).pc = s.pc := rfl
@[simp] theorem State.raiseFault_stack (k : FaultKind) (o : Option Word) : (s.raiseFault k o).stack = s.stack := rfl
@[simp] theorem State.raiseFault_sp (k : FaultKind) (o : Option Word) : (s.raiseFault k o).sp = s.sp := rfl
@[simp] theorem State.raiseFault_dt (k : FaultKind) (o : Option Word) : (s.raiseFault k o).dt = s.dt := rfl
@[simp] theorem State.raiseFault_st (k : FaultKind) (o : Option Word) : (s.raiseFault k o).st = s.st := rfl
@[simp] theorem State.raiseFault_tLast (k : FaultKind) (o : Option Word) : (s.raiseFault k o).tLast = s.tLast := rfl
@[simp] theorem State.raiseFault_queue (k : FaultKind) (o : Option Word) : (s.raiseFault k o).queue = s.queue := rfl
@[simp] theorem State.raiseFault_keyDown (k : FaultKind) (o : Option Word) : (s.raiseFault k o).keyDown = s.keyDown := rfl
@[simp] theorem State.raiseFault_pend (k : FaultKind) (o : Option Word) : (s.raiseFault k o).pend = s.pend := rfl
@[simp] theorem State.raiseFault_cur (k : FaultKind) (o : Option Word) : (s.raiseFault k o).cur = s.cur := rfl
@[simp] theorem State.raiseFault_fault (k : FaultKind) (o : Option Word) : (s.raiseFault k o).fault = some { kind := k, pc := s.pc, opcode := o } := rfl
@[simp] theorem State.raiseFault_rom (k : FaultKind) (o : Option Word) : (s.raiseFault k o).rom = s.rom := rfl
@[simp] theorem State.raiseFault_romOffset (k : FaultKind) (o : Option Word) : (s.raiseFault k o).romOffset = s.romOffset := rfl
@[simp] theorem State.raiseFault_mem (k : FaultKind) (o : Option Word) : (s.raiseFault k o).mem = s.mem := rfl
@[simp] theorem State.raiseFault_params (k : FaultKind) (o : Option Word) : (s.raiseFault k o).params = s.params := rfl
@[simp] theorem State.raiseFault_now (k : FaultKind) (o : Option Word) : (s.raiseFault k o).now = s.now := rfl
@[simp] theorem State.raiseFault_draws (k : FaultKind) (o : Option Word) : (s.raiseFault k o).draws = s.draws := rfl
@[simp] theorem State.raiseFault_phase (k : FaultKind) (o : Option Word) : (s.raiseFault k o).phase = s.phase := rfl
@[simp] theorem State.raiseFault_inbox (k : FaultKind) (o : Option Word) : (s.raiseFault k o).inbox = s.inbox := rfl

@[simp] theorem State.finishReg_v (x : Reg) (b : Byte) : (s.finishReg x b).v = s.v.set x.val b := rfl
@[simp] theorem State.finishReg_i (x : Reg) (b : Byte) : (s.finishReg x b).i = s.i := rfl
@[simp] theorem State.finishReg_pc (x : Reg) (b : Byte) : (s.finishReg x b).pc = s.pc + 2 := rfl
@[simp] theorem State.finishReg_stack (x : Reg) (b : Byte) : (s.finishReg x b).stack = s.stack := rfl
@[simp] theorem State.finishReg_sp (x : Reg) (b : Byte) : (s.finishReg x b).sp = s.sp := rfl
@[simp] theorem State.finishReg_dt (x : Reg) (b : Byte) : (s.finishReg x b).dt = s.dt := rfl
@[simp] theorem State.finishReg_st (x : Reg) (b : Byte) : (s.finishReg x b).st = s.st := rfl
@[simp] theorem State.finishReg_tLast (x : Reg) (b : Byte) : (s.finishReg x b).tLast = s.tLast := rfl
@[simp] theorem State.finishReg_queue (x : Reg) (b : Byte) : (s.finishReg x b).queue = s.queue := rfl
@[simp] theorem State.finishReg_keyDown (x : Reg) (b : Byte) : (s.finishReg x b).keyDown = s.keyDown := rfl
@[simp] theorem State.finishReg_pend (x : Reg) (b : Byte) : (s.finishReg x b).pend = s.pend := rfl
@[simp] theorem State.finishReg_cur (x : Reg) (b : Byte) : (s.finishReg x b).cur = s.cur := rfl
@[simp] theorem State.finishReg_fault (x : Reg) (b : Byte) : (s.finishReg x b).fault = s.fault := rfl
@[simp] theorem State.finishReg_rom (x : Reg) (b : Byte) : (s.finishReg x b).rom = s.rom := rfl
@[simp] theorem State.finishReg_romOffset (x : Reg) (b : Byte) : (s.finishReg x b).romOffset = s.romOffset := rfl
@[simp] theorem State.finishReg_mem (x : Reg) (b : Byte) : (s.finishReg x b).mem = s.mem := rfl
@[simp] theorem State.finishReg_params (x : Reg) (b : Byte) : (s.finishReg x b).params = s.params := rfl
@[simp] theorem State.finishReg_now (x : Reg) (b : Byte) : (s.finishReg x b).now = s.now := rfl
@[simp] theorem State.finishReg_draws (x : Reg) (b : Byte) : (s.finishReg x b).draws = s.draws := rfl
@[simp] theorem State.finishReg_phase (x : Reg) (b : Byte) : (s.finishReg x b).phase = s.phase := rfl
@[simp] theorem State.finishReg_inbox (x : Reg) (b : Byte) : (s.finishReg x b).inbox = s.inbox := rfl

@[simp] theorem State.finishFlag_v (x : Reg) (f b : Byte) : (s.finishFlag x f b).v = (s.v.set vF.val f).set x.val b := rfl
@[simp] theorem State.finishFlag_i (x : Reg) (f b : Byte) : (s.finishFlag x f b).i = s.i := rfl
@[simp] theorem State.finishFlag_pc (x : Reg) (f b : Byte) : (s.finishFlag x f b).pc = s.pc + 2 := rfl
@[simp] theorem State.finishFlag_stack (x : Reg) (f b : Byte) : (s.finishFlag x f b).stack = s.stack := rfl
@[simp] theorem State.finishFlag_sp (x : Reg) (f b : Byte) : (s.finishFlag x f b).sp = s.sp := rfl
@[simp] theorem State.finishFlag_dt (x : Reg) (f b : Byte) : (s.finishFlag x f b).dt = s.dt := rfl
@[simp] theorem State.finishFlag_st (x : Reg) (f b : Byte) : (s.finishFlag x f b).st = s.st := rfl
@[simp] theorem State.finishFlag_tLast (x : Reg) (f b : Byte) : (s.finishFlag x f b).tLast = s.tLast := rfl
@[simp] theorem State.finishFlag_queue (x : Reg) (f b : Byte) : (s.finishFlag x f b).queue = s.queue := rfl
@[simp] theorem State.finishFlag_keyDown (x : Reg) (f b : Byte) : (s.finishFlag x f b).keyDown = s.keyDown := rfl
@[simp] theorem State.finishFlag_pend (x : Reg) (f b : Byte) : (s.finishFlag x f b).pend = s.pend := rfl
@[simp] theorem State.finishFlag_cur (x : Reg) (f b : Byte) : (s.finishFlag x f b).cur = s.cur := rfl
@[simp] theorem State.finishFlag_fault (x : Reg) (f b : Byte) : (s.finishFlag x f b).fault = s.fault := rfl
@[simp] theorem State.finishFlag_rom (x : Reg) (f b : Byte) : (s.finishFlag x f b).rom = s.rom := rfl
@[simp] theorem State.finishFlag_romOffset (x : Reg) (f b : Byte) : (s.finishFlag x f b).romOffset = s.romOffset := rfl
@[simp] theorem State.finishFlag_mem (x : Reg) (f b : Byte) : (s.finishFlag x f b).mem = s.mem := rfl
@[simp] theorem State.finishFlag_params (x : Reg) (f b : Byte) : (s.finishFlag x f b).params = s.params := rfl
@[simp] theorem State.finishFlag_now (x : Reg) (f b : Byte) : (s.finishFlag x f b).now = s.now := rfl
@[simp] theorem State.finishFlag_draws (x : Reg) (f b : Byte) : (s.finishFlag x f b).draws = s.draws := rfl
@[simp] theorem State.finishFlag_phase (x : Reg) (f b : Byte) : (s.finishFlag x f b).phase = s.phase := rfl
@[simp] theorem State.finishFlag_inbox (x : Reg) (f b : Byte) : (s.finishFlag x f b).inbox = s.inbox := rfl

@[simp] theorem State.keyPush_v (k : Key) : (s.keyPush k).v = s.v := rfl
@[simp] theorem State.keyPush_i (k : Key) : (s.keyPush k).i = s.i := rfl
@[simp] theorem State.keyPush_pc (k : Key) : (s.keyPush k).pc = s.pc := rfl
@[simp] theorem State.keyPush_stack (k : Key) : (s.keyPush k).stack = s.stack := rfl
@[simp] theorem State.keyPush_sp (k : Key) : (s.keyPush k).sp = s.sp := rfl
@[simp] theorem State.keyPush_dt (k : Key) : (s.keyPush k).dt = s.dt := rfl
@[simp] theorem State.keyPush_st (k : Key) : (s.keyPush k).st = s.st := rfl
@[simp] theorem State.keyPush_tLast (k : Key) : (s.keyPush k).tLast = s.tLast := rfl
@[simp] theorem State.keyPush_queue (k : Key) : (s.keyPush k).queue = (if s.queue.length = s.params.keyqCap then s.queue.drop 1 else s.queue) ++ [k] := rfl
@[simp] theorem State.keyPush_keyDown (k : Key) : (s.keyPush k).keyDown = s.keyDown := rfl
@[simp] theorem State.keyPush_pend (k : Key) : (s.keyPush k).pend = s.pend := rfl
@[simp] theorem State.keyPush_cur (k : Key) : (s.keyPush k).cur = s.cur := rfl
@[simp] theorem State.keyPush_fault (k : Key) : (s.keyPush k).fault = s.fault := rfl
@[simp] theorem State.keyPush_rom (k : Key) : (s.keyPush k).rom = s.rom := rfl
@[simp] theorem State.keyPush_romOffset (k : Key) : (s.keyPush k).romOffset = s.romOffset := rfl
@[simp] theorem State.keyPush_mem (k : Key) : (s.keyPush k).mem = s.mem := rfl
@[simp] theorem State.keyPush_params (k : Key) : (s.keyPush k).params = s.params := rfl
@[simp] theorem State.keyPush_now (k : Key) : (s.keyPush k).now = s.now := rfl
@[simp] theorem State.keyPush_draws (k : Key) : (s.keyPush k).draws = s.draws := rfl
@[simp] theorem State.keyPush_phase (k : Key) : (s.keyPush k).phase = s.phase := rfl
@[simp] theorem State.keyPush_inbox (k : Key) : (s.keyPush k).inbox = s.inbox := rfl

@[simp] theorem State.present_v : s.present.v = s.v := rfl
@[simp] theorem State.present_i : s.present.i = s.i := rfl
@[simp] theorem State.present_pc : s.present.pc = s.pc := rfl
@[simp] theorem State.present_stack : s.present.stack = s.stack := rfl
@[simp] theorem State.present_sp : s.present.sp = s.sp := rfl
@[simp] theorem State.present_dt : s.present.dt = s.dt := rfl
@[simp] theorem State.present_st : s.present.st = s.st := rfl
@[simp] theorem State.present_tLast : s.present.tLast = s.tLast := rfl
@[simp] theorem State.present_queue : s.present.queue = s.queue := rfl
@[simp] theorem State.present_keyDown : s.present.keyDown = s.keyDown := rfl
@[simp] theorem State.present_pend : s.present.pend = s.pend := rfl
@[simp] theorem State.present_cur : s.present.cur = s.pend := rfl
@[simp] theorem State.present_fault : s.present.fault = s.fault := rfl
@[simp] theorem State.present_rom : s.present.rom = s.rom := rfl
@[simp] theorem State.present_romOffset : s.present.romOffset = s.romOffset := rfl
@[simp] theorem State.present_mem : s.present.mem = s.mem := rfl
@[simp] theorem State.present_params : s.present.params = s.params := rfl
@[simp] theorem State.present_now : s.present.now = s.now := rfl
@[simp] theorem State.present_draws : s.present.draws = s.draws := rfl
@[simp] theorem State.present_phase : s.present.phase = s.phase := rfl
@[simp] theorem State.present_inbox : s.present.inbox = s.inbox := rfl

/-- A timer update writes DT, ST and tLast only. -/
theorem State.timerUpdate_eq (now : Nat) :
    s.timerUpdate now = { s with dt := (s.timerUpdate now).dt, st := (s.timerUpdate now).st, tLast := (s.timerUpdate now).tLast } := by
  unfold State.timerUpdate
  dsimp only
  split <;> rfl

@[simp] theorem State.timerUpdate_v (now : Nat) : (s.timerUpdate now).v = s.v := by rw [State.timerUpdate_eq]
@[simp] theorem State.timerUpdate_i (now : Nat) : (s.timerUpdate now).i = s.i := by rw [State.timerUpdate_eq]
@[simp] theorem State.timerUpdate_pc (now : Nat) : (s.timerUpdate now).pc = s.pc := by rw [State.timerUpdate_eq]
@[simp] theorem State.timerUpdate_stack (now : Nat) : (s.timerUpdate now).stack = s.stack := by rw [State.timerUpdate_eq]
@[simp] theorem State.timerUpdate_sp (now : Nat) : (s.timerUpdate now).sp = s.sp := by rw [State.timerUpdate_eq]
@[simp] theorem State.timerUpdate_queue (now : Nat) : (s.timerUpdate now).queue = s.queue := by rw [State.timerUpdate_eq]
@[simp] theorem State.timerUpdate_keyDown (now : Nat) : (s.timerUpdate now).keyDown = s.keyDown := by rw [State.timerUpdate_eq]
@[simp] theorem State.timerUpdate_pend (now : Nat) : (s.timerUpdate now).pend = s.pend := by rw [State.timerUpdate_eq]
@[simp] theorem State.timerUpdate_cur (now : Nat) : (s.timerUpdate now).cur = s.cur := by rw [State.timerUpdate_eq]
@[simp] theorem State.timerUpdate_fault (now : Nat) : (s.timerUpdate now).fault = s.fault := by rw [State.timerUpdate_eq]
@[simp] theorem State.timerUpdate_rom (now : Nat) : (s.timerUpdate now).rom = s.rom := by rw [State.timerUpdate_eq]
@[simp] theorem State.timerUpdate_romOffset (now : Nat) : (s.timerUpdate now).romOffset = s.romOffset := by rw [State.timerUpdate_eq]
@[simp] theorem State.timerUpdate_mem (now : Nat) : (s.timerUpdate now).mem = s.mem := by rw [State.timerUpdate_eq]
@[simp] theorem State.timerUpdate_params (now : Nat) : (s.timerUpdate now).params = s.params := by rw [State.timerUpdate_eq]
@[simp] theorem State.timerUpdate_now (now : Nat) : (s.timerUpdate now).now = s.now := by rw [State.timerUpdate_eq]
@[simp] theorem State.timerUpdate_draws (now : Nat) : (s.timerUpdate now).draws = s.draws := by rw [State.timerUpdate_eq]
@[simp] theorem State.timerUpdate_phase (now : Nat) : (s.timerUpdate now).phase = s.phase := by rw [State.timerUpdate_eq]
@[simp] theorem State.timerUpdate_inbox (now : Nat) : (s.timerUpdate now).inbox = s.inbox := by rw [State.timerUpdate_eq]

@[simp] theorem State.storeAt_v (e : Nat) (b : Byte) : (s.storeAt e b).v = s.v := by unfold State.storeAt; split <;> rfl
@[simp] theorem State.storeAt_i (e : Nat) (b : Byte) : (s.storeAt e b).i = s.i := by unfold State.storeAt; split <;> rfl
@[simp] theorem State.storeAt_pc (e : Nat) (b : Byte) : (s.storeAt e b).pc = s.pc := by unfold State.storeAt; split <;> rfl
@[simp] theorem State.storeAt_stack (e : Nat) (b : Byte) : (s.storeAt e b).stack = s.stack := by unfold State.storeAt; split <;> rfl
@[simp] theorem State.storeAt_sp (e : Nat) (b : Byte) : (s.storeAt e b).sp = s.sp := by unfold State.storeAt; split <;> rfl
@[simp] theorem State.storeAt_dt (e : Nat) (b : Byte) : (s.storeAt e b).dt = s.dt := by unfold State.storeAt; split <;> rfl
@[simp] theorem State.storeAt_st (e : Nat) (b : Byte) : (s.storeAt e b).st = s.st := by unfold State.storeAt; split <;> rfl
@[simp] theorem State.storeAt_tLast (e : Nat) (b : Byte) : (s.storeAt e b).tLast = s.tLast := by unfold State.storeAt; split <;> rfl
@[simp] theorem State.storeAt_queue (e : Nat) (b : Byte) : (s.storeAt e b).queue = s.queue := by unfold State.storeAt; split <;> rfl
@[simp] theorem State.storeAt_keyDown (e : Nat) (b : Byte) : (s.storeAt e b).keyDown = s.keyDown := by unfold State.storeAt; split <;> rfl
@[simp] theorem State.storeAt_pend (e : Nat) (b : Byte) : (s.storeAt e b).pend = s.pend := by unfold State.storeAt; split <;> rfl
@[simp] theorem State.storeAt_cur (e : Nat) (b : Byte) : (s.storeAt e b).cur = s.cur := by unfold State.storeAt; split <;> rfl
@[simp] theorem State.storeAt_fault (e : Nat) (b : Byte) : (s.storeAt e b).fault = s.fault := by unfold State.storeAt; split <;> rfl
@[simp] theorem State.storeAt_rom (e : Nat) (b : Byte) : (s.storeAt e b).rom = s.rom := by unfold State.storeAt; split <;> rfl
@[simp] theorem State.storeAt_romOffset (e : Nat) (b : Byte) : (s.storeAt e b).romOffset = s.romOffset := by unfold State.storeAt; split <;> rfl
@[simp] theorem State.storeAt_params (e : Nat) (b : Byte) : (s.storeAt e b).params = s.params := by unfold State.storeAt; split <;> rfl
@[simp] theorem State.storeAt_now (e : Nat) (b : Byte) : (s.storeAt e b).now = s.now := by unfold State.storeAt; split <;> rfl
@[simp] theorem State.storeAt_draws (e : Nat) (b : Byte) : (s.storeAt e b).draws = s.draws := by unfold State.storeAt; split <;> rfl
@[simp] theorem State.storeAt_phase (e : Nat) (b : Byte) : (s.storeAt e b).phase = s.phase := by unfold State.storeAt; split <;> rfl
@[simp] theorem State.storeAt_inbox (e : Nat) (b : Byte) : (s.storeAt e b).inbox = s.inbox := by unfold State.storeAt; split <;> rfl

end Sys2Proof.Machine
end

