-- ==== Sys2Proof/Laws/Ops.lean ====
section
/-! SUPPORT. One lemma per shared operation that says everything it can do. -/

namespace Sys2Proof.Machine

/-! ## Registers and post-actions -/

theorem State.getV_eq (s : State) (x : Reg) : s.getV x = s.v[x.val] := rfl

@[simp] theorem State.getV_setV_self (s : State) (x : Reg) (b : Byte) : (s.setV x b).getV x = b := by
  simp [State.getV_eq]

theorem State.getV_setV_ne (s : State) {x y : Reg} (b : Byte) (h : x ≠ y) : (s.setV x b).getV y = s.getV y := by
  have : x.val ≠ y.val := fun e => h (Fin.ext e)
  simp [State.getV_eq, Vector.getElem_set_ne _ _ this]

theorem State.getV_setV (s : State) (x y : Reg) (b : Byte) :
    (s.setV x b).getV y = if x = y then b else s.getV y := by
  split
  · next h => subst h; exact State.getV_setV_self s x b
  · next h => exact State.getV_setV_ne s b h

/-- A state that differs from `s` in fields other than V reads the same registers. -/
theorem State.getV_congr {s t : State} (h : t.v = s.v) (x : Reg) : t.getV x = s.getV x := by
  simp [State.getV_eq, h]

theorem State.skipIf_eq (s : State) (c : Bool) : s.skipIf c = { s with pc := s.pc + if c then 4 else 2 } := by
  cases c <;> rfl

/-! ## The call stack -/

/-- With a free entry a push writes it and counts it. -/
theorem State.push_some (s : State) (w : Word) (h : s.sp.val < 16) :
    s.push w = some { s with stack := s.stack.set s.sp.val w, sp := ⟨s.sp.val + 1, by omega⟩ } := dif_pos h

/-- With all 16 entries used a push fails. -/
theorem State.push_none (s : State) (w : Word) (h : s.sp.val = 16) : s.push w = none := dif_neg (by omega)

/-- With a pushed frame a pop answers the newest entry and leaves it in place. -/
theorem State.pop_some (s : State) (h : 0 < s.sp.val) :
    s.pop = some (s.stack[s.sp.val - 1], { s with sp := ⟨s.sp.val - 1, by omega⟩ }) := dif_pos h

/-- With no pushed frame a pop fails. -/
theorem State.pop_none (s : State) (h : s.sp.val = 0) : s.pop = none := dif_neg (by omega)

/-! ## Addresses and runs of bytes -/

/-- Under `wrap` every address is reduced modulo 4096 (R36). -/
@[simp] theorem effAddr_wrap (a : Nat) : effAddr .wrap a = some (a % 4096) := rfl

/-- Under `fault` an address below 4096 stands and any other is BadAddress (R36). -/
theorem effAddr_fault (a : Nat) : effAddr .fault a = if a < 4096 then some a else none := rfl

theorem effAddr_lt {p : AddrPolicy} {a e : Nat} (h : effAddr p a = some e) : e < memSize := by
  cases p with
  | wrap =>
    simp only [effAddr_wrap, Option.some.injEq] at h
    simp only [memSize]
    omega
  | fault =>
    simp only [effAddr_fault] at h
    split at h
    · simp only [Option.some.injEq] at h
      simp only [memSize]
      omega
    · cases h

/-- A read depends on the memory and the parameters only. -/
theorem State.memRead_congr {s t : State} (hm : t.mem = s.mem) (hp : t.params = s.params) (a : Nat) :
    t.memRead a = s.memRead a := by
  simp [State.memRead, hm, hp]

theorem State.memRead_wrap (s : State) (h : s.params.addrPolicy = .wrap) (a : Nat) :
    s.memRead a = some (Mem.read s.mem (a % 4096)) := by
  simp [State.memRead, h]

theorem State.memWrite_wrap (s : State) (h : s.params.addrPolicy = .wrap) (a : Nat) (b : Byte) :
    s.memWrite a b = some (s.storeAt (a % 4096) b) := by
  simp [State.memWrite, h]

/-- The whole effect of a store at an effective address: memory only, and nothing in the font region (R38). -/
theorem State.storeAt_eq (s : State) (e : Nat) (b : Byte) :
    s.storeAt e b = { s with mem := if e < fontSize then s.mem else Mem.write s.mem e b } := by
  unfold State.storeAt
  split <;> rfl

/-- A byte write answers a store at an effective address inside the memory. -/
theorem State.memWrite_some {s t : State} {a : Nat} {b : Byte} (h : s.memWrite a b = some t) :
    ∃ e, e < memSize ∧ effAddr s.params.addrPolicy a = some e ∧ t = s.storeAt e b := by
  unfold State.memWrite at h
  split at h
  · next e he => exact ⟨e, effAddr_lt he, he, by simpa using h.symm⟩
  · cases h

/-- A run of writes touches memory only. -/
theorem State.writeBytes_frame (bytes : List Byte) : ∀ {s t : State} {a : Nat}, s.writeBytes a bytes = some t →
    t = { s with mem := t.mem } := by
  induction bytes with
  | nil =>
    intro s t a h
    simp only [State.writeBytes, Option.some.injEq] at h
    subst h
    rfl
  | cons b bs ih =>
    intro s t a h
    simp only [State.writeBytes] at h
    split at h
    · next s' hs =>
      obtain ⟨e, -, -, rfl⟩ := State.memWrite_some hs
      have := ih h
      rw [this, State.storeAt_eq]
    · cases h

/-- Under `wrap` a run of reads never fails, and byte `j` is the one at `(a + j) mod 4096`. -/
theorem State.readBytes_wrap (s : State) (h : s.params.addrPolicy = .wrap) (n : Nat) : ∀ a,
    s.readBytes a n = some ((List.range n).map fun j => Mem.read s.mem ((a + j) % 4096)) := by
  induction n with
  | zero => intro a; rfl
  | succ n ih =>
    intro a
    simp only [State.readBytes, State.memRead_wrap s h, ih, List.range_succ_eq_map, List.map_cons, List.map_map]
    simp [Function.comp_def, Nat.add_assoc, Nat.add_comm 1]

/-- Under `wrap` a run of writes never fails. -/
theorem State.writeBytes_wrap (bytes : List Byte) : ∀ {s : State} (_ : s.params.addrPolicy = .wrap) (a : Nat),
    ∃ t, s.writeBytes a bytes = some t := by
  induction bytes with
  | nil => intro s _ a; exact ⟨s, rfl⟩
  | cons b bs ih =>
    intro s h a
    simp only [State.writeBytes, State.memWrite_wrap s h]
    exact ih (by simpa using h) (a + 1)

/-- A run of writes keeps the canonical form. -/
theorem State.writeBytes_wf (bytes : List Byte) : ∀ {s t : State} {a : Nat}, s.mem.wf →
    s.writeBytes a bytes = some t → t.mem.wf := by
  induction bytes with
  | nil =>
    intro s t a hs h
    simp only [State.writeBytes, Option.some.injEq] at h
    exact h ▸ hs
  | cons b bs ih =>
    intro s t a hs h
    simp only [State.writeBytes] at h
    split at h
    · next s' hs' =>
      obtain ⟨e, he, -, rfl⟩ := State.memWrite_some hs'
      refine ih ?_ h
      rw [State.storeAt_eq]
      dsimp only
      split
      · exact hs
      · exact Mem.write_wf hs he b
    · cases h

/-- A run of writes never changes the font region (R38, R39). -/
theorem State.writeBytes_font (bytes : List Byte) : ∀ {s t : State} {a : Nat},
    s.writeBytes a bytes = some t → ∀ b < fontSize, Mem.read t.mem b = Mem.read s.mem b := by
  induction bytes with
  | nil =>
    intro s t a h b _
    simp only [State.writeBytes, Option.some.injEq] at h
    rw [h]
  | cons x xs ih =>
    intro s t a h b hb
    simp only [State.writeBytes] at h
    split at h
    · next s' hs' =>
      obtain ⟨e, -, -, rfl⟩ := State.memWrite_some hs'
      rw [ih h b hb, State.storeAt_eq]
      dsimp only
      split
      · rfl
      · exact Mem.read_write_ne _ _ (by omega)
    · cases h

/-- The registers V0..Vx as bytes. -/
theorem State.regsUpTo_length (s : State) (x : Reg) : (s.regsUpTo x).length = x.val + 1 := by
  simp only [State.regsUpTo, List.length_take, Vector.length_toList]
  omega

/-- Loading a run of registers touches V only. -/
theorem State.setRegsFrom_frame (bytes : List Byte) : ∀ (s : State) (j : Nat),
    s.setRegsFrom j bytes = { s with v := (s.setRegsFrom j bytes).v } := by
  induction bytes with
  | nil => intro s j; rfl
  | cons b bs ih =>
    intro s j
    simp only [State.setRegsFrom]
    split
    · rw [ih]
      rfl
    · rfl

/-- Loading a run of registers: register `k` takes byte `k - j` where the run reaches it. -/
theorem State.getV_setRegsFrom (bytes : List Byte) : ∀ (s : State) (j : Nat) (k : Reg), j + bytes.length ≤ 16 →
    (s.setRegsFrom j bytes).getV k =
      if h : j ≤ k.val ∧ k.val < j + bytes.length then bytes[k.val - j]'(by omega) else s.getV k := by
  induction bytes with
  | nil => intro s j k _; simp [State.setRegsFrom]
  | cons b bs ih =>
    intro s j k hj
    simp only [List.length_cons] at hj
    simp only [State.setRegsFrom, dif_pos (show j < 16 by omega)]
    rw [ih _ _ _ (by omega)]
    by_cases hk : j + 1 ≤ k.val ∧ k.val < j + 1 + bs.length
    · rw [dif_pos hk, dif_pos (by simp only [List.length_cons]; omega)]
      obtain ⟨d, hd⟩ : ∃ d, k.val - j = d + 1 := ⟨k.val - j - 1, by omega⟩
      have hd' : k.val - (j + 1) = d := by omega
      simp only [hd, hd', List.getElem_cons_succ]
    · rw [dif_neg hk]
      by_cases hjk : j = k.val
      · have : (⟨j, by omega⟩ : Reg) = k := Fin.ext hjk
        rw [this, State.getV_setV_self, dif_pos (by simp only [List.length_cons]; omega)]
        simp [hjk]
      · rw [State.getV_setV_ne _ _ (fun e => hjk (by rw [← e])), dif_neg (by simp only [List.length_cons]; omega)]

/-! ## Pixels -/

@[simp] theorem Plane.pixel_blank (c r : Nat) : Plane.blank.pixel c r = false := by
  unfold Plane.pixel Plane.blank
  split <;> simp

/-- A toggle flips its own pixel and no other. -/
theorem Plane.pixel_toggle (p : Plane) (c r c' r' : Nat) :
    (p.toggle c r).pixel c' r' =
      if c = c' ∧ r = r' ∧ r < 32 ∧ c < 64 then !p.pixel c' r' else p.pixel c' r' := by
  unfold Plane.toggle Plane.pixel
  by_cases h : r < 32 ∧ c < 64
  · by_cases h' : r' < 32 ∧ c' < 64
    · simp only [dif_pos h, dif_pos h', Vector.getElem_set]
      by_cases hr : r = r'
      · subst hr
        simp only [if_true, Vector.getElem_set]
        by_cases hc : c = c' <;> simp [hc, h, h']
      · simp [hr]
    · simp only [dif_pos h, dif_neg h']
      rw [if_neg (by rintro ⟨rfl, rfl, h1, h2⟩; exact h' h)]
  · simp only [dif_neg h]
    rw [if_neg (by rintro ⟨-, -, h1, h2⟩; exact h ⟨h1, h2⟩)]

/-- Two planes with the same pixels are the same plane. -/
theorem Plane.ext_pixel {p q : Plane} (h : ∀ c r, c < 64 → r < 32 → p.pixel c r = q.pixel c r) : p = q := by
  apply Vector.ext
  intro r hr
  apply Vector.ext
  intro c hc
  simpa [Plane.pixel, hr, hc] using h c r hc hr

/-! ## Keys -/

/-- A key test changes the queue at most. -/
theorem State.pressed_frame (s : State) (v : Byte) : (s.pressed v).2 = { s with queue := (s.pressed v).2.queue } := by
  unfold State.pressed State.keyDrain
  split <;> rfl

end Sys2Proof.Machine
end

