-- ==== Sys2Proof/Laws/PerInstr.lean ====
section
/-! SUPPORT. The statements made once per instruction. Family `TableRow`: the word the encoder gives an instruction has
the fixed bits that the instruction's row of spec/opcode_table.json gives (columns match and mask). -/

namespace Sys2Proof.Laws.TableRow

/-- The encoded word agrees with the row's match on the row's mask. -/
def Statement (i : Instr) : Prop := (encode i).toNat &&& tableMask i = tableMatch i

/-- A mask with zeros in its low `k` bits looks at the quotient only. -/
theorem and_high (n a k : Nat) : n &&& (a * 2 ^ k) = (n / 2 ^ k &&& a) * 2 ^ k := by
  apply Nat.eq_of_testBit_eq
  intro j
  simp only [Nat.testBit_and, Nat.testBit_mul_two_pow, Nat.testBit_div_two_pow]
  by_cases h : k ≤ j <;> simp [h]

/-- A mask splits into its bits above and below `k`. -/
theorem and_split (n a b k : Nat) (hb : b < 2 ^ k) :
    n &&& (a * 2 ^ k + b) = (n / 2 ^ k &&& a) * 2 ^ k + (n % 2 ^ k &&& b) := by
  have h1 : n % 2 ^ k &&& b < 2 ^ k := lt_of_le_of_lt Nat.and_le_right hb
  apply Nat.eq_of_testBit_eq
  intro j
  rw [Nat.mul_comm a, Nat.mul_comm _ (2 ^ k), Nat.testBit_and, Nat.testBit_two_pow_mul_add a hb,
    Nat.testBit_two_pow_mul_add _ h1]
  by_cases h : j < k
  · simp [h, Nat.testBit_and, Nat.testBit_mod_two_pow]
  · simp only [h, if_false, Nat.testBit_and, Nat.testBit_div_two_pow]
    rw [Nat.sub_add_cancel (by omega)]

theorem and_f000 {n : Nat} (h : n < 65536) : n &&& 0xF000 = n / 4096 * 4096 := by
  have e := and_high n 15 12
  have e1 : n / 2 ^ 12 &&& 15 = n / 2 ^ 12 % 16 := Nat.and_two_pow_sub_one_eq_mod _ 4
  rw [e1] at e
  refine e.trans ?_
  omega

theorem and_f00f {n : Nat} (h : n < 65536) : n &&& 0xF00F = n / 4096 * 4096 + n % 16 := by
  have e := and_split n 0xF00 0xF 4 (by decide)
  have e1 := and_high (n / 2 ^ 4) 15 8
  have e2 : n / 2 ^ 4 / 2 ^ 8 &&& 15 = n / 2 ^ 4 / 2 ^ 8 % 16 := Nat.and_two_pow_sub_one_eq_mod _ 4
  have e3 : n % 2 ^ 4 &&& 15 = n % 2 ^ 4 % 16 := Nat.and_two_pow_sub_one_eq_mod _ 4
  rw [e2] at e1
  rw [e3, show n / 2 ^ 4 &&& 0xF00 = _ from e1] at e
  refine e.trans ?_
  omega

theorem and_f0ff {n : Nat} (h : n < 65536) : n &&& 0xF0FF = n / 4096 * 4096 + n % 256 := by
  have e := and_split n 0xF0 0xFF 8 (by decide)
  have e1 := and_high (n / 2 ^ 8) 15 4
  have e2 : n / 2 ^ 8 / 2 ^ 4 &&& 15 = n / 2 ^ 8 / 2 ^ 4 % 16 := Nat.and_two_pow_sub_one_eq_mod _ 4
  have e3 : n % 2 ^ 8 &&& 255 = n % 2 ^ 8 % 256 := Nat.and_two_pow_sub_one_eq_mod _ 8
  rw [e2] at e1
  rw [e3, show n / 2 ^ 8 &&& 0xF0 = _ from e1] at e
  refine e.trans ?_
  omega

/-- Format NNN. -/
theorem nnn_row {o1 : Nat} (h : o1 < 16) (nnn : Addr12) : (encodeNNN o1 nnn).toNat &&& 0xF000 = o1 * 4096 := by
  have := nnn.isLt
  rw [encodeNNN, BitVec.toNat_ofNat, Nat.mod_eq_of_lt (by omega), and_f000 (by omega)]
  omega

/-- Format XKK. -/
theorem xkk_row {o1 : Nat} (h : o1 < 16) (x : Reg) (kk : Byte) :
    (encodeXKK o1 x kk).toNat &&& 0xF000 = o1 * 4096 := by
  have := kk.isLt
  rw [encodeXKK, BitVec.toNat_ofNat, Nat.mod_eq_of_lt (by omega), and_f000 (by omega)]
  omega

/-- Format XYF, a fixed minor nibble. -/
theorem xyf_row {o1 f : Nat} (h : o1 < 16) (hf : f < 16) (x y : Reg) :
    (encodeXYF o1 x y f).toNat &&& 0xF00F = o1 * 4096 + f := by
  rw [encodeXYF, BitVec.toNat_ofNat, Nat.mod_eq_of_lt (by omega), and_f00f (by omega)]
  omega

/-- Format XYN, the minor nibble an operand. -/
theorem xyn_row {o1 : Nat} (h : o1 < 16) (x y n : Fin 16) :
    (encodeXYF o1 x y n.val).toNat &&& 0xF000 = o1 * 4096 := by
  rw [encodeXYF, BitVec.toNat_ofNat, Nat.mod_eq_of_lt (by omega), and_f000 (by omega)]
  omega

/-- Format XFF, a fixed minor byte. -/
theorem xff_row {o1 ff : Nat} (h : o1 < 16) (hf : ff < 256) (x : Reg) :
    (encodeXFF o1 x ff).toNat &&& 0xF0FF = o1 * 4096 + ff := by
  rw [encodeXFF, BitVec.toNat_ofNat, Nat.mod_eq_of_lt (by omega), and_f0ff (by omega)]
  omega

theorem cls : Statement .cls := by unfold Statement; decide

theorem ret : Statement .ret := by unfold Statement; decide

theorem sys (nnn : Addr12) : Statement (.sys nnn) := nnn_row (by decide) nnn

theorem jp (nnn : Addr12) : Statement (.jp nnn) := nnn_row (by decide) nnn

theorem call (nnn : Addr12) : Statement (.call nnn) := nnn_row (by decide) nnn

theorem seImm (x : Reg) (kk : Byte) : Statement (.seImm x kk) := xkk_row (by decide) x kk

theorem sneImm (x : Reg) (kk : Byte) : Statement (.sneImm x kk) := xkk_row (by decide) x kk

theorem seReg (x : Reg) (y : Reg) : Statement (.seReg x y) := xyf_row (by decide) (by decide) x y

theorem ldImm (x : Reg) (kk : Byte) : Statement (.ldImm x kk) := xkk_row (by decide) x kk

theorem addImm (x : Reg) (kk : Byte) : Statement (.addImm x kk) := xkk_row (by decide) x kk

theorem ldReg (x : Reg) (y : Reg) : Statement (.ldReg x y) := xyf_row (by decide) (by decide) x y

theorem orReg (x : Reg) (y : Reg) : Statement (.orReg x y) := xyf_row (by decide) (by decide) x y

theorem andReg (x : Reg) (y : Reg) : Statement (.andReg x y) := xyf_row (by decide) (by decide) x y

theorem xorReg (x : Reg) (y : Reg) : Statement (.xorReg x y) := xyf_row (by decide) (by decide) x y

theorem addReg (x : Reg) (y : Reg) : Statement (.addReg x y) := xyf_row (by decide) (by decide) x y

theorem subReg (x : Reg) (y : Reg) : Statement (.subReg x y) := xyf_row (by decide) (by decide) x y

theorem shr (x : Reg) : Statement (.shr x) := xyf_row (by decide) (by decide) x 0

theorem subnReg (x : Reg) (y : Reg) : Statement (.subnReg x y) := xyf_row (by decide) (by decide) x y

theorem shl (x : Reg) : Statement (.shl x) := xyf_row (by decide) (by decide) x 0

theorem sneReg (x : Reg) (y : Reg) : Statement (.sneReg x y) := xyf_row (by decide) (by decide) x y

theorem ldI (nnn : Addr12) : Statement (.ldI nnn) := nnn_row (by decide) nnn

theorem jpV0 (nnn : Addr12) : Statement (.jpV0 nnn) := nnn_row (by decide) nnn

theorem rnd (x : Reg) (kk : Byte) : Statement (.rnd x kk) := xkk_row (by decide) x kk

theorem drw (x : Reg) (y : Reg) (n : Fin 16) : Statement (.drw x y n) := xyn_row (by decide) x y n

theorem skp (x : Reg) : Statement (.skp x) := xff_row (by decide) (by decide) x

theorem sknp (x : Reg) : Statement (.sknp x) := xff_row (by decide) (by decide) x

theorem ldVxDT (x : Reg) : Statement (.ldVxDT x) := xff_row (by decide) (by decide) x

theorem ldVxK (x : Reg) : Statement (.ldVxK x) := xff_row (by decide) (by decide) x

theorem ldDTVx (x : Reg) : Statement (.ldDTVx x) := xff_row (by decide) (by decide) x

theorem ldSTVx (x : Reg) : Statement (.ldSTVx x) := xff_row (by decide) (by decide) x

theorem addIVx (x : Reg) : Statement (.addIVx x) := xff_row (by decide) (by decide) x

theorem ldFVx (x : Reg) : Statement (.ldFVx x) := xff_row (by decide) (by decide) x

theorem ldBVx (x : Reg) : Statement (.ldBVx x) := xff_row (by decide) (by decide) x

theorem ldMemVx (x : Reg) : Statement (.ldMemVx x) := xff_row (by decide) (by decide) x

theorem ldVxMem (x : Reg) : Statement (.ldVxMem x) := xff_row (by decide) (by decide) x

end Sys2Proof.Laws.TableRow
end

