-- ==== Sys2Proof/Laws/Step.lean ====
section
/-! SUPPORT. What one step, one instruction step and one host operation can do: one case each, so that no later proof
unfolds them. -/

namespace Sys2Proof.Machine

theorem step_eq (s : State) : step s = s.advance := rfl

/-- Everything an instruction step can do. -/
theorem State.stepInstruction_cases (s : State) :
    (s.fault.isSome ∧ s.stepInstruction = .fault .halted) ∨
    (s.fault = none ∧ s.fetch = none ∧ s.stepInstruction = .next (s.raiseFault .badAddress none)) ∨
    (∃ w e, s.fault = none ∧ s.fetch = some w ∧ decodeWord w = .error e ∧
      s.stepInstruction = .next (s.raiseFault .illegalInstruction (some w))) ∨
    (∃ w i, s.fault = none ∧ s.fetch = some w ∧ decodeWord w = .ok i ∧ s.stepInstruction = exec i s) := by
  unfold State.stepInstruction
  cases hf : s.fault with
  | some f => exact .inl ⟨rfl, rfl⟩
  | none =>
    refine .inr ?_
    cases hw : s.fetch with
    | none => exact .inl ⟨rfl, rfl, rfl⟩
    | some w =>
      refine .inr ?_
      cases hd : decodeWord w with
      | error e => exact .inl ⟨w, e, rfl, rfl, hd, by simp [hd]⟩
      | ok i => exact .inr ⟨w, i, rfl, rfl, hd, by simp [hd]⟩

/-- Everything a step of the machine can do. -/
theorem step_cases (s : State) :
    (∃ left, s.phase = .batch left ∧ (left = 0 ∨ s.fault.isSome) ∧ step s = .next s.endTick) ∨
    (∃ left, s.phase = .batch (left + 1) ∧ s.fault = none ∧ step s = s.batchStep left) ∨
    (s.phase = .idle ∧ s.inbox = [] ∧ step s = .next s) ∨
    (∃ op rest, s.phase = .idle ∧ s.inbox = op :: rest ∧
      step s = ({ s with inbox := rest } : State).hostStep op) := by
  rw [step_eq]
  unfold State.advance
  cases hp : s.phase with
  | idle =>
    cases hi : s.inbox with
    | nil => exact .inr (.inr (.inl ⟨rfl, rfl, rfl⟩))
    | cons op rest => exact .inr (.inr (.inr ⟨op, rest, rfl, rfl, rfl⟩))
  | batch left =>
    cases left with
    | zero => exact .inl ⟨0, rfl, .inl rfl, rfl⟩
    | succ left =>
      cases hf : s.fault with
      | some f => exact .inl ⟨left + 1, rfl, .inr rfl, by simp⟩
      | none => exact .inr (.inl ⟨left, rfl, rfl, by simp⟩)

/-- An idle step takes the oldest host operation and gives its outcome. -/
theorem step_of_inbox {s : State} {op : HostOp} {rest : List HostOp} (hp : s.phase = .idle) (hi : s.inbox = op :: rest) :
    step s = ({ s with inbox := rest } : State).hostStep op := by
  simp [step_eq, State.advance, hp, hi]

/-- A batch step that answers a next state ran an instruction step that did, and only moved the driver on. -/
theorem State.batchStep_next {s t : State} {left : Nat} (h : s.batchStep left = .next t) :
    ∃ s', s.stepInstruction = .next s' ∧ t = { s' with phase := .batch (if s.waitsAtPC then 0 else left) } := by
  unfold State.batchStep at h
  split at h
  · next s' hs => exact ⟨s', hs, by simpa using h.symm⟩
  · cases h
  · cases h

/-! ## The time of a host operation (R136) -/

/-- At a time not below the last one an operation has its outcome. -/
theorem State.atTime_of_le {s : State} {t : Nat} (h : s.now ≤ t) (o : Result) : s.atTime t o = o :=
  if_neg (Nat.not_lt.mpr h)

/-- At a smaller time it is refused. -/
theorem State.atTime_of_lt {s : State} {t : Nat} (h : t < s.now) (o : Result) : s.atTime t o = .refused .timeBackwards :=
  if_pos h

/-- A host operation that answers a next state came at a time not below the last one, and did what it does. -/
theorem State.hostStep_next {s t : State} {op : HostOp} (h : s.hostStep op = .next t) :
    s.now ≤ op.time ∧
    ((∃ image offset now, op = .load image offset now ∧ s.hostLoad image offset now = .next t) ∨
     (∃ now, op = .reset now ∧ t = s.hostReset now) ∨
     (∃ now keys kd, op = .tick now keys kd ∧ t = s.beginTick now keys kd)) := by
  unfold State.hostStep at h
  by_cases hn : op.time < s.now
  · rw [State.atTime_of_lt hn] at h
    cases h
  · rw [State.atTime_of_le (Nat.not_lt.mp hn)] at h
    refine ⟨Nat.not_lt.mp hn, ?_⟩
    cases op with
    | load image offset now => exact .inl ⟨image, offset, now, rfl, h⟩
    | reset now => exact .inr (.inl ⟨now, rfl, by simpa using h.symm⟩)
    | tick now keys kd => exact .inr (.inr ⟨now, keys, kd, rfl, by simpa using h.symm⟩)

end Sys2Proof.Machine
end

