-- ==== Sys2Proof/Tests/Slice0.lean ====
section
/-! SUPPORT. Small tests. Every expected result is from spec/95_test_vectors.md (its vector's id is in the comment) or
written out by hand from the rule named. -/

namespace Sys2Proof.Tests

open Sys2Proof.Machine

/-! ## Well-formedness -/

/-- 00E0 is CLS, never SYS (R55). -/
theorem test_wf_refuses_sys_0E0 : (Instr.sys 0x0E0).wf = false := by decide
/-- 00EE is RET, never SYS (R55). -/
theorem test_wf_refuses_sys_0EE : (Instr.sys 0x0EE).wf = false := by decide
theorem test_wf_accepts_sys_0E1 : (Instr.sys 0x0E1).wf = true := by decide

/-! ## Decoding: one word of every row, written out from the encoding of the row -/

theorem test_decode_family0 : decodeWord 0x00E0 = .ok .cls ∧ decodeWord 0x00EE = .ok .ret ∧
    decodeWord 0x00E1 = .ok (.sys 0x0E1) ∧ decodeWord 0x0000 = .ok (.sys 0) := by decide   -- DEC-1..4
theorem test_decode_jumps : decodeWord 0x1ABC = .ok (.jp 0xABC) ∧ decodeWord 0x2456 = .ok (.call 0x456) ∧
    decodeWord 0xB300 = .ok (.jpV0 0x300) ∧ decodeWord 0xA123 = .ok (.ldI 0x123) := by decide
theorem test_decode_skips : decodeWord 0x3342 = .ok (.seImm 3 0x42) ∧ decodeWord 0x4342 = .ok (.sneImm 3 0x42) ∧
    decodeWord 0x5120 = .ok (.seReg 1 2) ∧ decodeWord 0x9120 = .ok (.sneReg 1 2) := by decide   -- DEC-5, DEC-8
theorem test_decode_immediates : decodeWord 0x6A5C = .ok (.ldImm 10 0x5C) ∧
    decodeWord 0x7102 = .ok (.addImm 1 2) ∧ decodeWord 0xC30F = .ok (.rnd 3 0x0F) ∧
    decodeWord 0xD125 = .ok (.drw 1 2 5) := by decide
theorem test_decode_alu : decodeWord 0x8120 = .ok (.ldReg 1 2) ∧ decodeWord 0x8121 = .ok (.orReg 1 2) ∧
    decodeWord 0x8122 = .ok (.andReg 1 2) ∧ decodeWord 0x8123 = .ok (.xorReg 1 2) ∧
    decodeWord 0x8124 = .ok (.addReg 1 2) ∧ decodeWord 0x8125 = .ok (.subReg 1 2) ∧
    decodeWord 0x8127 = .ok (.subnReg 1 2) := by decide
theorem test_decode_shifts_ignore_y : decodeWord 0x8126 = .ok (.shr 1) ∧ decodeWord 0x81F6 = .ok (.shr 1) ∧
    decodeWord 0x812E = .ok (.shl 1) ∧ decodeWord 0x810E = .ok (.shl 1) := by decide   -- DEC-6
theorem test_decode_keys : decodeWord 0xE19E = .ok (.skp 1) ∧ decodeWord 0xE1A1 = .ok (.sknp 1) ∧
    decodeWord 0xF00A = .ok (.ldVxK 0) := by decide   -- DEC-10, DEC-11
theorem test_decode_familyF : decodeWord 0xF507 = .ok (.ldVxDT 5) ∧ decodeWord 0xF215 = .ok (.ldDTVx 2) ∧
    decodeWord 0xF218 = .ok (.ldSTVx 2) ∧ decodeWord 0xF21E = .ok (.addIVx 2) ∧
    decodeWord 0xF029 = .ok (.ldFVx 0) ∧ decodeWord 0xF033 = .ok (.ldBVx 0) ∧
    decodeWord 0xF255 = .ok (.ldMemVx 2) ∧ decodeWord 0xF165 = .ok (.ldVxMem 1) := by decide
theorem test_decode_illegal : decodeWord 0x5121 = .error (.illegal 0x5121) ∧
    decodeWord 0x8128 = .error (.illegal 0x8128) ∧ decodeWord 0x812F = .error (.illegal 0x812F) ∧
    decodeWord 0x912F = .error (.illegal 0x912F) ∧ decodeWord 0xE100 = .error (.illegal 0xE100) ∧
    decodeWord 0xF090 = .error (.illegal 0xF090) ∧ decodeWord 0xFFFF = .error (.illegal 0xFFFF) := by
  decide   -- DEC-5, DEC-7, DEC-8, DEC-10, DEC-11
theorem test_decode_big_endian : decodeBytes [0x6A, 0x5C, 0x99] = .ok (.ldImm 10 0x5C, [0x99]) := by decide   -- R41
theorem test_decode_truncated : decodeBytes [0x6A] = .error .truncated := by decide
theorem test_decode_table_word : decodeTableWord 16 0xD125 = some (.drw 1 2 5) := by decide

/-! ## A small machine -/

/-- Parameters for tests: this hardware's values, and values for the open ones. -/
def params : Params where
  ipf := 10
  keyqCap := 16
  keyMode := .queue
  clockHz := 600
  addrPolicy := .wrap
  resetRam := .preserve

/-- A constructed block. -/
def s0 : State := State.powerOn params 0

/-- `s` with some registers, I and PC. -/
def st (regs : List (Reg × Byte)) (i : Word := 0) (pc : Word := 0x200) : State :=
  regs.foldl (fun s p => s.setV p.1 p.2) { s0 with i := i, pc := pc }

/-- `s` with bytes stored from address `a`. -/
def withBytes (s : State) (a : Nat) (bytes : List Byte) : State := { s with mem := s.mem.writeAll a bytes }

/-- The outcome is a next state that passes `f`. -/
def ok (o : Result) (f : State → Bool) : Bool :=
  match o with
  | .next t => f t
  | .fault _ => false
  | .refused _ => false

/-- One step of the machine on the word `w` placed at PC. -/
def run (w : Nat) (s : State) : Result := step (s.withFetchWord 16 w)

/-- The pixels of a plane that are on. -/
def lit (p : Plane) : Nat := (p.toList.map fun row => row.toList.count true).sum

/-! ## Control transfer and skips (40_control.md) -/

theorem test_sys : ok (run 0x0123 s0) (fun t => t.pc == 0x123) = true := by decide   -- CT-1
theorem test_jp : ok (run 0x1ABC s0) (fun t => t.pc == 0xABC) = true := by decide   -- CT-3
theorem test_call_last_entry : ok (run 0x2456 { st [] (pc := 0x300) with sp := 15 })
    (fun t => t.sp == 16 && t.stack[15] == 0x300 && t.pc == 0x456) = true := by decide   -- CT-6
theorem test_call_overflow : ok (run 0x2456 { st [] (pc := 0x300) with sp := 16 })
    (fun t => t.fault == some ⟨.stackOverflow, 0x300, some 0x2456⟩ && t.sp == 16 && t.pc == 0x300) = true := by
  decide   -- CT-7
theorem test_ret_wraps : ok (run 0x00EE { s0 with sp := 1, stack := s0.stack.set 0 0xFFFE })
    (fun t => t.sp == 0 && t.pc == 0 && t.stack[0] == 0xFFFE) = true := by decide   -- CT-10
theorem test_ret_underflow : ok (run 0x00EE s0)
    (fun t => t.fault == some ⟨.stackUnderflow, 0x200, some 0x00EE⟩ && t.pc == 0x200) = true := by decide   -- CT-9
theorem test_jpV0 : ok (run 0xBFFF (st [(0, 0xFF)])) (fun t => t.pc == 0x10FE) = true := by decide   -- CT-12
theorem test_jpV0_not_vx : ok (run 0xB300 (st [(3, 0x42)])) (fun t => t.pc == 0x300) = true := by decide   -- CT-13
theorem test_seImm : ok (run 0x3342 (st [(3, 0x42)])) (fun t => t.pc == 0x204) &&
    ok (run 0x3343 (st [(3, 0x42)])) (fun t => t.pc == 0x202) = true := by decide   -- CT-14
theorem test_sneImm : ok (run 0x4342 (st [(3, 0x42)])) (fun t => t.pc == 0x202) &&
    ok (run 0x4300 (st [(3, 0x42)])) (fun t => t.pc == 0x204) = true := by decide   -- CT-15
theorem test_seReg : ok (run 0x5120 (st [(1, 7), (2, 7)])) (fun t => t.pc == 0x204) = true := by decide   -- CT-16
theorem test_sneReg : ok (run 0x9120 (st [(1, 1), (2, 2)])) (fun t => t.pc == 0x204) &&
    ok (run 0x9110 (st [(1, 1)])) (fun t => t.pc == 0x202) = true := by decide   -- CT-18, CT-19
theorem test_skip_wraps : ok (run 0x3F00 (st [] (pc := 0xFFFE))) (fun t => t.pc == 2) = true := by decide   -- CT-21
/-- CT-23: a fetch at 0xFFF takes its low byte from the font byte at 0. -/
theorem test_fetch_wraps : ok (step { withBytes (st [] (pc := 0xFFF)) 0xFFF [0x60] with phase := .batch 1 })
    (fun t => t.getV 0 == 0xF0 && t.pc == 0x1001) = true := by decide

/-! ## Registers and ALU (41_register_alu.md) -/

theorem test_ldImm : ok (run 0x6A5C s0) (fun t => t.getV 10 == 0x5C && t.pc == 0x202) = true := by decide   -- AL-1
theorem test_addImm_no_flag : ok (run 0x7102 (st [(1, 0xFF), (15, 7)]))
    (fun t => t.getV 1 == 1 && t.getV 15 == 7) = true := by decide   -- AL-2
theorem test_ldReg : ok (run 0x8120 (st [(1, 0x12), (2, 0x34)]))
    (fun t => t.getV 1 == 0x34 && t.getV 2 == 0x34) = true := by decide   -- AL-5
theorem test_orReg : ok (run 0x8121 (st [(1, 0xF0), (2, 0x0F), (15, 7)]))
    (fun t => t.getV 1 == 0xFF && t.getV 15 == 7) = true := by decide   -- AL-6
theorem test_andReg : ok (run 0x8122 (st [(1, 0xF0), (2, 0x3C)])) (fun t => t.getV 1 == 0x30) = true := by decide   -- AL-7
theorem test_xorReg : ok (run 0x8123 (st [(1, 0xFF), (2, 0x0F)])) (fun t => t.getV 1 == 0xF0) = true := by decide   -- AL-8
theorem test_addReg_vf_operand : ok (run 0x81F4 (st [(1, 1), (15, 0xFF)]))
    (fun t => t.getV 1 == 0 && t.getV 15 == 1) = true := by decide   -- AL-24
theorem test_addReg_vf_destination : ok (run 0x8F14 (st [(1, 1), (15, 0xFF)]))
    (fun t => t.getV 15 == 0) = true := by decide   -- AL-23
theorem test_subReg_borrow : ok (run 0x8125 (st [(1, 0), (2, 1)]))
    (fun t => t.getV 1 == 0xFF && t.getV 15 == 0) = true := by decide   -- S-B2
theorem test_subReg_equal : ok (run 0x8125 (st [(1, 3), (2, 3), (15, 9)]))
    (fun t => t.getV 1 == 0 && t.getV 15 == 0) = true := by decide   -- AL-14
theorem test_shr : ok (run 0x8126 (st [(1, 1), (2, 0x77)]))
    (fun t => t.getV 1 == 0 && t.getV 15 == 1 && t.getV 2 == 0x77) = true := by decide   -- AL-17
theorem test_subnReg : ok (run 0x8127 (st [(1, 5), (2, 3)]))
    (fun t => t.getV 1 == 0xFE && t.getV 15 == 0) = true := by decide   -- AL-19
theorem test_subnReg_vf_destination : ok (run 0x8F27 (st [(2, 0), (15, 1)]))
    (fun t => t.getV 15 == 0xFF) = true := by decide   -- AL-28
theorem test_shl : ok (run 0x812E (st [(1, 0xFF)])) (fun t => t.getV 1 == 0xFE && t.getV 15 == 1) = true := by decide   -- AL-22
theorem test_shl_vf_destination : ok (run 0x8F0E (st [(15, 0x81)])) (fun t => t.getV 15 == 2) = true := by decide   -- AL-27
theorem test_rnd_mask_zero : ok (run 0xC300 (st [(3, 5)])) (fun t => t.pc == 0x202 && t.draws == 1) = true := by decide   -- AL-30

/-! ## Index register and memory (42_index_memory.md) -/

theorem test_ldI : ok (run 0xA123 s0) (fun t => t.i == 0x123) = true := by decide   -- IM-1
theorem test_addIVx_wraps : ok (run 0xF21E (st [(2, 2), (15, 7)] (i := 0xFFFF)))
    (fun t => t.i == 1 && t.getV 15 == 7) = true := by decide   -- IM-4
theorem test_ldFVx_no_mask : ok (run 0xF029 (st [(0, 0x1A)])) (fun t => t.i == 0x82) = true := by decide   -- IM-6
theorem test_ldBVx : ok (run 0xF033 (st [(0, 0x7B)] (i := 0x300)))
    (fun t => t.mem.read 0x300 == 1 && t.mem.read 0x301 == 2 && t.mem.read 0x302 == 3 && t.i == 0x300) = true := by
  decide   -- IM-9
theorem test_ldBVx_font_discard : ok (run 0xF033 (st [(0, 0xFF)] (i := 0x04E)))
    (fun t => t.mem.read 0x4E == 0x80 && t.mem.read 0x4F == 0x80 && t.mem.read 0x50 == 5) = true := by decide   -- IM-11
theorem test_ldMemVx : ok (run 0xF255 (withBytes (st [(0, 1), (1, 2), (2, 3)] (i := 0x300)) 0x303 [0x99]))
    (fun t => t.mem.read 0x300 == 1 && t.mem.read 0x302 == 3 && t.mem.read 0x303 == 0x99 && t.i == 0x300) = true := by
  decide   -- IM-12
theorem test_ldMemVx_wraps : ok (run 0xF155 (st [(0, 0x11), (1, 0x22)] (i := 0xFFF)))
    (fun t => t.mem.read 0xFFF == 0x11 && t.mem.read 0 == 0xF0) = true := by decide   -- IM-14
theorem test_ldVxMem : ok (run 0xF165 (withBytes (st [(2, 9)] (i := 0x300)) 0x300 [0xAA, 0xBB, 0xCC]))
    (fun t => t.getV 0 == 0xAA && t.getV 1 == 0xBB && t.getV 2 == 9 && t.i == 0x300) = true := by decide   -- IM-15
theorem test_ldVxMem_font : ok (run 0xF065 s0) (fun t => t.getV 0 == 0xF0) = true := by decide   -- IM-16

/-! ## Display (43_display.md) -/

theorem test_drw_glyph : ok (run 0xD005 s0) (fun t => lit t.pend == 14 && t.getV 15 == 0 && lit t.cur == 0) = true := by
  decide   -- DR-1
/-- S-B4: the body is clipped at both edges, and column 0 stays off. -/
theorem test_drw_clips : ok (run 0xD012 (withBytes (st [(0, 62), (1, 30)] (i := 0x300)) 0x300 [0xFF, 0xFF]))
    (fun t => lit t.pend == 4 && t.pend.pixel 62 30 && t.pend.pixel 63 31 && !t.pend.pixel 0 30 && t.getV 15 == 0) =
      true := by decide
/-- DR-6: one pixel collides and goes off, its neighbour goes on. -/
theorem test_drw_collision :
    ok (run 0xD011 { withBytes (st [] (i := 0x300)) 0x300 [0xC0] with pend := Plane.blank.toggle 0 0 })
    (fun t => !t.pend.pixel 0 0 && t.pend.pixel 1 0 && t.getV 15 == 1) = true := by decide
theorem test_cls : ok (run 0x00E0 { s0 with pend := Plane.blank.toggle 5 5, cur := Plane.blank.toggle 5 5 })
    (fun t => lit t.pend == 0 && lit t.cur == 1) = true := by decide   -- DR-10

/-! ## Keypad and timers (44_keypad_timer.md) -/

theorem test_skp_hit : ok (run 0xE19E { st [(1, 7)] with queue := [3, 7] })
    (fun t => t.pc == 0x204 && t.queue == []) = true := by decide   -- KT-1
theorem test_skp_miss : ok (run 0xE19E { st [(1, 0x17)] with queue := [7] })
    (fun t => t.pc == 0x202 && t.queue == []) = true := by decide   -- KT-3
theorem test_skp_level : ok (run 0xE19E
    { st [(1, 7)] with queue := [3], keyDown := 0x80, params := { params with keyMode := .level } })
    (fun t => t.pc == 0x204 && t.queue == [3]) = true := by decide   -- KT-13
theorem test_sknp : ok (run 0xE1A1 { st [(1, 7)] with queue := [7] }) (fun t => t.pc == 0x202) &&
    ok (run 0xE1A1 (st [(1, 7)])) (fun t => t.pc == 0x204) = true := by decide   -- KT-4, KT-5
theorem test_ldVxK_wait : ok (run 0xF30A { s0 with phase := .batch 5 })
    (fun t => t.pc == 0x200 && t.phase == .batch 0) = true := by decide   -- KT-7
theorem test_ldVxK_pop : ok (run 0xF30A { s0 with queue := [5, 9], phase := .batch 5 })
    (fun t => t.getV 3 == 5 && t.queue == [9] && t.pc == 0x202 && t.phase == .batch 4) = true := by decide   -- KT-8
theorem test_ldVxDT : ok (run 0xF507 { s0 with dt := 0x20 }) (fun t => t.getV 5 == 0x20) = true := by decide   -- KT-10
theorem test_ldDTVx : ok (run 0xF215 { st [(2, 0x3C)] with now := 77 })
    (fun t => t.dt == 0x3C && t.tLast == 77 && t.st == 0) = true := by decide   -- KT-11
theorem test_ldSTVx : ok (run 0xF218 { s0 with st := 0x10, now := 5 })
    (fun t => t.st == 0 && t.tLast == 5 && !t.tone) = true := by decide   -- KT-12

/-! ## Timer unit and key queue (60_exceptions.md) -/

/-- TM-1: P = 10, two periods by 25, and the partial period is kept. -/
theorem test_timer_update : (let t := ({ s0 with dt := 5, st := 1 } : State).timerUpdate 25
    t.dt == 3 && t.st == 0 && t.tLast == 20) = true := by decide
/-- TM-4: both timers stop at 0. -/
theorem test_timer_saturates : (let t := ({ s0 with dt := 2, tLast := 30 } : State).timerUpdate 1000
    t.dt == 0 && t.st == 0 && t.tLast == 1000) = true := by decide
/-- KQ-2: a push into a full queue drops the oldest event. -/
theorem test_key_push_full : (({ s0 with queue := [0, 1, 2, 3, 4, 5, 6, 7, 8, 9, 10, 11, 12, 13, 14, 15] } : State).keyPush 0).queue =
    [1, 2, 3, 4, 5, 6, 7, 8, 9, 10, 11, 12, 13, 14, 15, 0] := by decide

/-! ## Faults (60_exceptions.md) -/

theorem test_illegal_word : ok (run 0x8128 s0)
    (fun t => t.fault == some ⟨.illegalInstruction, 0x200, some 0x8128⟩ && t.pc == 0x200) = true := by decide   -- FL-1
theorem test_bad_address_data : ok (run 0xF033
    { st [(0, 0x7B)] (i := 0xFFE) with params := { params with addrPolicy := .fault } })
    (fun t => t.fault == some ⟨.badAddress, 0x200, some 0xF033⟩ && t.mem.read 0xFFE == 0) = true := by decide   -- FL-7
theorem test_bad_address_fetch :
    ok (step { st [] (pc := 0xFFF) with params := { params with addrPolicy := .fault }, phase := .batch 1 })
    (fun t => t.fault == some ⟨.badAddress, 0xFFF, none⟩) = true := by decide   -- FL-8
theorem test_drw_height_zero_no_fault :
    ok (run 0xD120 { st [(15, 3)] (i := 0x1000) with params := { params with addrPolicy := .fault } })
    (fun t => t.fault == none && t.getV 15 == 0) = true := by decide   -- FL-9
/-- FL-4 (first tick): a halted block runs no instruction, and its timers and present go on. -/
theorem test_halted_tick :
    ok (({ s0 with
      fault := some ⟨.illegalInstruction, 0x200, some 0x8128⟩
      dt := 3
      st := 3
      pend := Plane.blank.toggle 1 1
      params := { params with clockHz := 60 } } : State).tick 1 [1, 2] 0)
    (fun t => t.dt == 2 && t.st == 2 && t.pc == 0x200 && t.queue == [1, 2] && t.cur == t.pend) = true := by decide

/-! ## Load, reset, tick (70_reset_and_hazards.md, 60_exceptions.md R137) -/

/-- C12, R145: the limit at offset 0xFFE is 2 bytes. -/
theorem test_load_too_large : ok (s0.hostLoad [1, 2, 3] 0xFFE 9)
    (fun t => t.fault == some ⟨.programTooLarge, 0x200, none⟩ && t.rom == [] && t.mem == []) = true := by decide
theorem test_load_then_read : ok (s0.hostLoad [0x60, 0x05, 0xF1, 0x0A] 0x200 9)
    (fun t => t.mem.read 0x203 == 0x0A && t.rom.length == 4 && t.pc == 0x200) = true := by decide
/-- R144: an offset below 80 is outside the host's contract. -/
theorem test_load_refused : (match s0.hostLoad [1] 79 0 with
    | .refused r => r == .loadOffset
    | .next _ => false
    | .fault _ => false) = true := by decide
/-- LR-5: under `preserve` a byte outside font and image keeps its value, and registers go to their reset values. -/
theorem test_reset_preserve : (let t := (withBytes (st [(3, 9)] (i := 5) (pc := 0x444)) 0x100 [0x55]).hostReset 8
    t.mem.read 0x100 == 0x55 && t.getV 3 == 0 && t.i == 0 && t.pc == 0x200 && t.tLast == 8) = true := by decide
/-- LR-6: under `zero` it becomes 0. -/
theorem test_reset_zero :
    (({ withBytes s0 0x100 [0x55] with params := { params with resetRam := .zero } } : State).hostReset 8).mem.read 0x100 = 0 := by
  decide
/-- LR-8: an Fx0A with an empty queue ends the batch; the tick then ends. -/
theorem test_tick_wait : ok ((withBytes s0 0x200 [0x60, 0x05, 0xF1, 0x0A]).tick 0 [] 0)
    (fun t => t.getV 0 == 5 && t.pc == 0x202 && t.phase == .idle) = true := by decide
/-- LR-7: three steps of the program 7001 1200. -/
theorem test_tick_budget :
    ok (({ withBytes s0 0x200 [0x70, 0x01, 0x12, 0x00] with params := { params with ipf := 3 } } : State).tick 0 [] 0)
    (fun t => t.getV 0 == 2 && t.pc == 0x202) = true := by decide
/-- R136: with no host operation pending the idle block does nothing. -/
theorem test_idle_does_nothing : ok (step s0) (fun t => t == s0) = true := by decide
/-- The driver takes a tick from its inbox and is then in a batch of IPF steps. -/
theorem test_inbox_tick : ok (step { s0 with inbox := [.tick 4 [9] 0] })
    (fun t => t.phase == .batch 10 && t.now == 4 && t.queue == [9] && t.inbox == []) = true := by decide

/-! ## Witnesses: a state and operands that meet all hypotheses of each statement, at boundary values -/

/-- Parameters with the other addressing policy. -/
def faultParams : Params := { params with addrPolicy := .fault }

/-- `s` inside a batch with `left` steps to go. -/
def inBatch (s : State) (left : Nat) : State := { s with phase := .batch left }

/-- A halted block. -/
def halted : State := { s0 with fault := some ⟨.illegalInstruction, 0x200, some 0x8128⟩ }

/-- MemoryAccessLaws: the last protected byte, the first stored one, and the first address that `fault` refuses. -/
theorem witness_memory_access : s0.mem.wf ∧ effAddr .wrap 4175 = some 79 ∧ effAddr .wrap 4176 = some 80 ∧
    effAddr .fault 4095 = some 4095 ∧ effAddr .fault 4096 = none ∧ s0.mem.fontIntact := by decide
/-- NoInstructionChangesTheFont, OnlyStoresChangeMemory: a store that crosses the end of the font. -/
theorem witness_store_across_font : ∃ t, exec (.ldMemVx 2) (st [(2, 7)] (i := 78)) = .next t ∧
    Mem.read t.mem 79 = Mem.read s0.mem 79 ∧ Mem.read t.mem 80 ≠ Mem.read s0.mem 80 := ⟨_, rfl, by decide⟩
theorem witness_digits_change_memory : ∃ t, exec (.ldBVx 0) (st [(0, 9)] (i := 80)) = .next t ∧
    Mem.read t.mem 82 ≠ Mem.read s0.mem 82 := ⟨_, rfl, by decide⟩
/-- StoredCodeIsFetchedNext, Fx55: the store covers just the two bytes of the next word, or its low byte alone. -/
theorem witness_stored_code : (let s := st [(0, 0x00), (1, 0xE0)] (i := 0x202)
    s.mem.wf ∧ s.params.addrPolicy = .wrap ∧ s.i = s.pc + 2 ∧ 80 ≤ s.i.toNat % 4096 ∧ 80 ≤ (s.i.toNat + 1) % 4096) ∧
    ∃ t, exec (.ldMemVx 1) (st [(0, 0x00), (1, 0xE0)] (i := 0x202)) = .next t ∧ t.fetch = some 0x00E0 :=
  ⟨by decide, _, rfl, by decide⟩
theorem witness_stored_code_low_byte : (let s := { st [(0, 0xE0)] (i := 0x203) with params := faultParams }
    s.mem.wf ∧ s.i.toNat + (0 : Reg).val < 4096 ∧ s.pc.toNat + 3 < 4096 ∧ 80 ≤ (s.i.toNat + (0 : Reg).val) % 4096) ∧
    ∃ t, exec (.ldMemVx 0) { st [(0, 0xE0)] (i := 0x203) with params := faultParams } = .next t ∧
      t.fetch = some 0x00E0 ∧ (t.pc.toNat + 1) % 4096 = 0x203 := ⟨by decide, _, rfl, by decide⟩
/-- StoredCodeIsFetchedNext, Fx33: the last two digits of 123 are the next word. -/
theorem witness_stored_digits : ∃ t, exec (.ldBVx 0) (st [(0, 123)] (i := 0x201)) = .next t ∧
    t.fetch = some 0x0203 ∧ t.pc.toNat % 4096 = 0x201 + 1 := ⟨_, rfl, by decide⟩
/-- FetchReadsBigEndianWord: the last PC that `fault` admits, and the first that it does not. -/
theorem witness_fetch_policies : ({ st [] (pc := 4094) with params := faultParams } : State).fetch = some 0 ∧
    ({ st [] (pc := 4095) with params := faultParams } : State).fetch = none ∧
    ({ st [] (pc := 4095) with params := faultParams } : State).fault = none ∧
    (st [] (pc := 4095)).fetch = some 0x00F0 := by decide
/-- DecodeOfEncode, EncodeOfDecode: a well-formed instruction, and a word whose y field the decoder ignores. -/
theorem witness_decode : (Instr.sys 0xFFF).wf = true ∧ decodeWord 0x81F6 = .ok (.shr 1) ∧
    decodeWord 0x800E = .ok (.shl 0) ∧ decodeWord 0xDFFF = .ok (.drw 15 15 15) := by decide
/-- IllegalWordPatterns: one word on each side of each pattern. -/
theorem witness_illegal_words : decodeWord 0x5120 = .ok (.seReg 1 2) ∧ decodeWord 0x512F = .error (.illegal 0x512F) ∧
    decodeWord 0x8127 = .ok (.subnReg 1 2) ∧ decodeWord 0x8128 = .error (.illegal 0x8128) ∧
    decodeWord 0x9120 = .ok (.sneReg 1 2) ∧ decodeWord 0x9121 = .error (.illegal 0x9121) ∧
    decodeWord 0xE19F = .error (.illegal 0xE19F) ∧ decodeWord 0xF166 = .error (.illegal 0xF166) := by decide
/-- StepRunsDecodedInstruction: the last step of a batch, and an Fx0A that waits. -/
theorem witness_step_runs : (let s := inBatch (withBytes s0 0x200 [0x60, 0x05]) 1
    s.phase = .batch (0 + 1) ∧ s.fault = none ∧ s.fetch = some 0x6005 ∧ decodeWord 0x6005 = .ok (.ldImm 0 5) ∧
      s.waitsAtPC = false) ∧
    (inBatch (withBytes s0 0x200 [0xF1, 0x0A]) 9).waitsAtPC = true := by decide
/-- InstructionsIgnoreTheDriver, HostStateUntouchedByInstructions. -/
theorem witness_exec_in_batch : ∃ t, exec (.ldImm 0 5) (inBatch s0 3) = .next t ∧ t.getV 0 = 5 := ⟨_, rfl, by decide⟩
/-- JumpResults: a SYS word beside the two exceptions. -/
theorem witness_sys_words : (0x0E1 : Addr12) ≠ 0x0E0 ∧ (0x0E1 : Addr12) ≠ 0x0EE := by decide
/-- CallResult, RetResult: the last free entry and the full stack, the one frame and the empty stack. -/
theorem witness_stack_bounds : ({ s0 with sp := 15 } : State).sp.val < 16 ∧ ({ s0 with sp := 16 } : State).sp.val = 16 ∧
    ({ s0 with sp := 1 } : State).sp.val = 0 + 1 ∧ ({ s0 with sp := 16 } : State).sp.val = 15 + 1 ∧
    s0.sp.val = 0 := by decide
theorem witness_call_last : ∃ t, exec (.call 0x456) { s0 with sp := 15 } = .next t ∧ t.sp.val = 16 ∧
    t.fault = none := ⟨_, rfl, by decide⟩
theorem witness_call_full : ∃ t, exec (.call 0x456) { s0 with sp := 16 } = .next t ∧
    t.fault = some ⟨.stackOverflow, 0x200, some 0x2456⟩ := ⟨_, rfl, by decide⟩
theorem witness_ret_empty : ∃ t, exec .ret s0 = .next t ∧ t.fault = some ⟨.stackUnderflow, 0x200, some 0x00EE⟩ :=
  ⟨_, rfl, by decide⟩
/-- SkipResults: a last nibble that is not 0. -/
theorem witness_skip_nibble : (1 : BitVec 4) ≠ 0 ∧ decodeWord (formatXYF 0x5 1 2 1) = .error (.illegal 0x5121) := by decide
/-- PostActionOfEveryInstruction: one instruction of each of its three cases. -/
theorem witness_post_next : ∃ t, exec (.addImm 1 2) s0 = .next t ∧ s0.fault = none ∧ t.fault = none ∧ s0.pcNext t :=
  ⟨_, rfl, by decide⟩
theorem witness_post_skip : ∃ t, exec (.seImm 1 0) s0 = .next t ∧ s0.fault = none ∧ t.fault = none ∧ s0.pcSkip t :=
  ⟨_, rfl, by decide⟩
theorem witness_post_wait : ∃ t, exec (.ldVxK 1) s0 = .next t ∧ s0.fault = none ∧ t.fault = none ∧ t.pc = s0.pc :=
  ⟨_, rfl, by decide⟩
/-- CallThenRetRestores: the last free entry. -/
theorem witness_call_then_ret : ∃ t, exec (.call 0x456) { st [] (pc := 0x300) with sp := 15 } = .next t ∧
    ∃ u, exec .ret t = .next u ∧ u.sp = 15 ∧ u.pc = 0x302 := ⟨_, rfl, _, rfl, by decide⟩
/-- AddSubResults, ShiftResults: a destination that is not VF. -/
theorem witness_not_vf : (0 : Reg) ≠ vF ∧ (14 : Reg) ≠ vF := by decide
/-- FlagWriters: VF changed as a flag, and VF changed as the destination of an instruction that sets no flag. -/
theorem witness_flag_changes : ∃ t, exec (.addReg 1 2) (st [(1, 0xFF), (2, 1)]) = .next t ∧ t.getV vF = 1 :=
  ⟨_, rfl, by decide⟩
theorem witness_flag_destination : ∃ t, exec (.ldImm vF 9) s0 = .next t ∧ t.getV vF ≠ s0.getV vF := ⟨_, rfl, by decide⟩
/-- DecimalDigitsResult, StoreRegistersResult, LoadRegistersResult: the last I of each policy that completes (the first I
that `fault` refuses is in the BadAddressConditions witnesses). -/
theorem witness_digits_wrap : s0.mem.wf ∧ ∃ t, exec (.ldBVx 0) (st [(0, 0xFF)] (i := 0xFFFF)) = .next t ∧
    Mem.read t.mem 0xFFF = 2 ∧ Mem.read t.mem 0 = 0xF0 := ⟨by decide, _, rfl, by decide⟩
theorem witness_digits_fault : ∃ t, exec (.ldBVx 0) { st [(0, 0xFF)] (i := 0xFFD) with params := faultParams } = .next t ∧
    0xFFD + 2 < 4096 ∧ t.fault = none ∧ Mem.read t.mem 0xFFF = 5 := ⟨_, rfl, by decide⟩
theorem witness_store_fault : ∃ t, exec (.ldMemVx 15) { st [(15, 9)] (i := 0xFF0) with params := faultParams } = .next t ∧
    0xFF0 + (15 : Reg).val < 4096 ∧ t.fault = none ∧ Mem.read t.mem 0xFFF = 9 := ⟨_, rfl, by decide⟩
theorem witness_load_fault : ∃ t, exec (.ldVxMem 15) { st [] (i := 0xFF0) with params := faultParams } = .next t ∧
    0xFF0 + (15 : Reg).val < 4096 ∧ t.fault = none := ⟨_, rfl, by decide⟩
/-- StoreThenLoadRestoresRegisters: stored bytes outside the font, and a later state with the same memory and I. -/
theorem witness_store_then_load : (let s := st [(0, 5), (1, 6)] (i := 80)
    s.mem.wf ∧ s.params.addrPolicy = .wrap ∧ ∀ j : Reg, j ≤ 1 → 80 ≤ (s.i.toNat + j.val) % 4096) ∧
    ∃ t, exec (.ldMemVx 1) (st [(0, 5), (1, 6)] (i := 80)) = .next t ∧ t.i = 80 := ⟨by decide, _, rfl, by decide⟩
/-- StoreThenLoadRestoresRegisters: the last I of `fault` at which both complete. -/
theorem witness_store_then_load_fault : (let s := { st [(0, 5), (1, 6)] (i := 0xFFE) with params := faultParams }
    s.mem.wf ∧ s.i.toNat + (1 : Reg).val < 4096 ∧ ∀ j : Reg, j ≤ 1 → 80 ≤ (s.i.toNat + j.val) % 4096) ∧
    ∃ t, exec (.ldMemVx 1) { st [(0, 5), (1, 6)] (i := 0xFFE) with params := faultParams } = .next t ∧
      t.fault = none ∧ t.i = 0xFFE := ⟨by decide, _, rfl, by decide⟩
/-- FontGlyphAddressed: the last digit. -/
theorem witness_font_glyph : s0.mem.fontIntact ∧ ((st [(3, 15)]).getV 3).toNat = (15 : Reg).val ∧
    glyphRows 15 = [0xF0, 0x80, 0xF0, 0x80, 0x80] := by decide
/-- IndexWriters. -/
theorem witness_index_changes : ∃ t, exec (.ldFVx 0) (st [(0, 1)]) = .next t ∧ t.i ≠ (st [(0, 1)]).i := ⟨_, rfl, by decide⟩
/-- DrawResult: the last I of `fault` with n = 1, and n = 0 at any I. -/
theorem witness_draw_fault : ∃ t, exec (.drw 0 0 1) { st [] (i := 0xFFF) with params := faultParams } = .next t ∧
    0xFFF + (1 : Fin 16).val ≤ 4096 ∧ t.fault = none := ⟨_, rfl, by decide⟩
theorem witness_draw_nothing : ∃ t, exec (.drw 0 0 0) { st [(15, 3)] (i := 0xFFFF) with params := faultParams } = .next t ∧
    (0 : Fin 16).val = 0 ∧ t.fault = none ∧ t.getV vF = 0 := ⟨_, rfl, by decide⟩
/-- DrawTwiceRestores: a first draw without collision whose sprite is not empty. -/
theorem witness_draw_twice : (Plane.blank.draw 63 31 [0x80]).2 = false ∧
    spriteCovers [0x80] ((63 : Byte).toNat % 64) ((31 : Byte).toNat % 32) 63 31 = true := by decide
/-- PlaneWriters. -/
theorem witness_plane_changes : ∃ t, exec (.drw 0 0 1) s0 = .next t ∧ t.pend ≠ s0.pend := ⟨_, rfl, by decide⟩
/-- KeyTestResults: each key mode, pressed and not. -/
theorem witness_key_queue : (let s := { st [(1, 7)] with queue := [3, 7] }
    s.params.keyMode = .queue ∧ (true = true ↔ ∃ k ∈ s.queue, k.toNat = (s.getV 1).toNat)) ∧
    (false = true ↔ ∃ k ∈ (st [(1, 0x17)]).queue, k.toNat = ((st [(1, 0x17)]).getV 1).toNat) := by decide
theorem witness_key_level : (let s := { st [(1, 15), (2, 16)] with
      keyDown := 0x8000, params := { params with keyMode := .level } }
    s.params.keyMode = .level ∧ ((s.getV 1).toNat < 16 ∧ s.keyDown.getLsbD (s.getV 1).toNat = true) ∧
    ¬((s.getV 2).toNat < 16 ∧ s.keyDown.getLsbD (s.getV 2).toNat = true)) := by decide
/-- KeyWaitResult: one event, and none with the instruction at PC in the last step of a batch. -/
theorem witness_key_wait : ({ s0 with queue := [15] } : State).queue = 15 :: [] ∧
    (let s := inBatch (withBytes s0 0x200 [0xF1, 0x0A]) 1
    s.queue = [] ∧ s.phase = .batch (0 + 1) ∧ s.fault = none ∧ s.fetch = some (formatXFF 0xF 1 0x0A)) := by decide
/-- TimerWriters, TimersNeverIncrease: a batch step that raises DT. -/
theorem witness_timer_grows : ∃ t, step (inBatch (withBytes (st [(2, 9)]) 0x200 [0xF2, 0x15]) 1) = .next t ∧
    (0 : Byte).toNat < t.dt.toNat := ⟨_, rfl, by decide⟩
theorem witness_sound_grows : ∃ t, step (inBatch (withBytes (st [(2, 9)]) 0x200 [0xF2, 0x18]) 1) = .next t ∧
    (0 : Byte).toNat < t.st.toNat := ⟨_, rfl, by decide⟩
/-- StackAndQueueWriters. -/
theorem witness_queue_changes : ∃ t, exec (.skp 0) { s0 with queue := [1] } = .next t ∧ t.queue = [] := ⟨_, rfl, by decide⟩
/-- FaultsArePrecise, IllegalWordFaults, WrapNeverBadAddress: an illegal word at PC. -/
theorem witness_illegal_step : (let s := inBatch (withBytes s0 0x200 [0x81, 0x28]) 1
    s.params.addrPolicy = .wrap ∧ s.phase = .batch (0 + 1) ∧ s.fault = none ∧ s.fetch = some 0x8128 ∧
      decodeWord 0x8128 = .error (.illegal 0x8128)) ∧
    ∃ t, (inBatch (withBytes s0 0x200 [0x81, 0x28]) 1).stepInstruction = .next t ∧
      t.fault = some ⟨.illegalInstruction, 0x200, some 0x8128⟩ := ⟨by decide, _, rfl, by decide⟩
/-- BadAddressConditions: the first PC and the first I of each form that `fault` refuses; at one less each completes. -/
theorem witness_bad_address : faultParams.addrPolicy = .fault ∧ s0.fault = none ∧
    4096 ≤ (0xFFF : Word).toNat + 1 ∧ 4096 ≤ (0x1000 : Word).toNat + (1 : Fin 16).val - 1 ∧
    4096 ≤ (0xFFE : Word).toNat + 2 ∧ 4096 ≤ (0xFF1 : Word).toNat + (15 : Reg).val := by decide
theorem witness_bad_draw : ∃ t, exec (.drw 0 0 1) { st [] (i := 0x1000) with params := faultParams } = .next t ∧
    t.fault = some ⟨.badAddress, 0x200, some 0xD001⟩ := ⟨_, rfl, by decide⟩
theorem witness_bad_digits : ∃ t, exec (.ldBVx 0) { st [] (i := 0xFFE) with params := faultParams } = .next t ∧
    t.fault = some ⟨.badAddress, 0x200, some 0xF033⟩ := ⟨_, rfl, by decide⟩
theorem witness_bad_store : ∃ t, exec (.ldMemVx 15) { st [] (i := 0xFF1) with params := faultParams } = .next t ∧
    t.fault = some ⟨.badAddress, 0x200, some 0xFF55⟩ ∧ t.mem = [] := ⟨_, rfl, by decide⟩
theorem witness_bad_load : ∃ t, exec (.ldVxMem 15) { st [] (i := 0xFF1) with params := faultParams } = .next t ∧
    t.fault = some ⟨.badAddress, 0x200, some 0xFF65⟩ := ⟨_, rfl, by decide⟩
/-- HaltedUntilReset: a reset, and a step inside a tick. -/
theorem witness_halted_reset : halted.fault ≠ none ∧ ∃ t, step { halted with inbox := [.reset 5] } = .next t ∧
    t.fault = none := ⟨by decide, _, rfl, by decide⟩
theorem witness_halted_batch : ∃ t, step (inBatch halted 3) = .next t ∧ t.fault = halted.fault ∧ t.phase = .idle :=
  ⟨_, rfl, by decide⟩
/-- ZeroWordRunsIntoTheFont: memory as constructed, two steps to go. -/
theorem witness_zero_word : (inBatch s0 2).params.addrPolicy = .wrap ∧ (inBatch s0 2).mem.fontIntact ∧
    (inBatch s0 2).phase = .batch (0 + 2) ∧ (inBatch s0 2).fault = none ∧ (inBatch s0 2).fetch = some 0 := by decide
/-- TimerUpdateResult: a whole period, one unit short of one, and a time before the timestamp. -/
theorem witness_timer_periods : 1 = (10 - s0.tLast) / (s0.params.clockHz / 60) ∧
    0 = (9 - s0.tLast) / (s0.params.clockHz / 60) ∧
    0 = (9 - ({ s0 with tLast := 10 } : State).tLast) / (s0.params.clockHz / 60) := by decide
/-- TimerUpdateResult, its clause on the tick: the end of a batch at the time of the update. -/
theorem witness_timer_end : (let s := { inBatch s0 0 with now := 10, dt := 3 }
    s.phase = .batch 0 ∧ s.now = 10 ∧ 1 = (10 - s.tLast) / (s.params.clockHz / 60)) := by decide
/-- TimerUpdateResult, its clause on the tick: a fault with steps of the budget left. -/
theorem witness_timer_end_halted : (let s := { inBatch halted 3 with now := 9 }
    s.phase = .batch 3 ∧ s.fault ≠ none ∧ s.now = 9 ∧ 0 = (9 - s.tLast) / (s.params.clockHz / 60)) := by decide
/-- I25, R136: a tick, a load and a reset at a time below the one before are refused, and at an equal time they are taken. -/
theorem test_time_backwards : step { s0 with now := 100, inbox := [.tick 99 [] 0] } = .refused .timeBackwards ∧
    step { s0 with now := 100, inbox := [.load [] 0x200 99] } = .refused .timeBackwards ∧
    step { s0 with now := 100, inbox := [.reset 99] } = .refused .timeBackwards ∧
    ({ s0 with now := 100 } : State).tick 99 [] 0 = .refused .timeBackwards := ⟨rfl, rfl, rfl, rfl⟩
theorem test_time_equal : ok (step { s0 with now := 100, inbox := [.tick 100 [] 0] }) (fun t => t.now == 100) &&
    ok (step { s0 with now := 100, inbox := [.reset 100] }) (fun t => t.tLast == 100) = true := by decide
/-- TimerUpdatesCompose: equal times, and an update inside a period. -/
theorem witness_timer_compose : s0.params.wf ∧ s0.tLast ≤ 0 ∧ s0.tLast ≤ 5 ∧ 5 ≤ 12 := by decide
/-- KeyQueueLaws: the last free place, the full queue, and the empty one. -/
theorem witness_queue_bounds : (let s := { s0 with params := { params with keyqCap := 2 } }
    ({ s with queue := [4] } : State).queue.length ≠ s.params.keyqCap ∧
    ({ s with queue := [4, 5] } : State).queue = 4 :: [5] ∧ ({ s with queue := [4, 5] } : State).queue.length = s.params.keyqCap ∧
    s.queue = []) := by decide
/-- TickStartResult, StepsRefineTheTick, TickCompletes: a tick at the head of the inbox; a halted block. -/
theorem witness_tick : ({ s0 with inbox := [.tick 4 [9] 0, .reset 5] } : State).phase = .idle ∧
    ({ s0 with inbox := [.tick 4 [9] 0, .reset 5] } : State).inbox = .tick 4 [9] 0 :: [.reset 5] ∧
    s0.now ≤ 4 ∧ s0.now ≤ 0 ∧ 3 < ({ s0 with now := 4 } : State).now ∧ halted.fault ≠ none := by decide
/-- LoadResult: a load at the head of the inbox, and the offsets and the lengths on both sides of each limit. -/
theorem witness_load : (let s := { s0 with inbox := [.load [1] 80 0, .reset 5] }
    s.mem.wf ∧ s.phase = .idle ∧ s.inbox = .load [1] 80 0 :: [.reset 5] ∧ s.now ≤ 0) ∧
    (79 < 80 ∨ 4096 < 79) ∧ (4097 < 80 ∨ 4096 < 4097) ∧
    (80 ≤ 80 ∧ 80 ≤ 4096 ∧ [(1 : Byte)].length ≤ 4096 - 80) ∧
    (80 ≤ 4095 ∧ 4095 ≤ 4096 ∧ [(1 : Byte)].length ≤ 4096 - 4095) ∧
    (80 ≤ 4096 ∧ 4096 ≤ 4096 ∧ 4096 - 4096 < [(1 : Byte)].length) := by decide
/-- LoadResult: a load taken by a step, at the last offset that holds a byte; the next operation stays pending. -/
theorem witness_load_step : ∃ t, step { s0 with inbox := [.load [7] 4095 3, .reset 5] } = .next t ∧
    Mem.read t.mem 4095 = 7 ∧ t.rom = [7] ∧ t.romOffset = 4095 ∧ t.inbox = [.reset 5] := ⟨_, rfl, by decide⟩
/-- ResetResult: an image at the top of memory, and a reset pending. -/
theorem witness_reset : (let s := { s0 with rom := [1, 2], romOffset := 4094, inbox := [.reset 7] }
    s.mem.wf ∧ s.romFits ∧ s.phase = .idle ∧ s.inbox = .reset 7 :: [] ∧ s.now ≤ 7) := by decide
/-- StepKeepsInv: a constructed block in the batch of a tick keeps to the invariant and its step answers a next state;
ResetHasInv: the parameters are in range. -/
theorem witness_inv : s0.Inv ∧ (inBatch s0 10).Inv ∧ params.wf ∧ faultParams.wf :=
  ⟨⟨by decide, by decide, by decide, by decide, by decide, by decide, by decide, by decide⟩,
    ⟨by decide, by decide, by decide, by decide, by decide, by decide, by decide, by decide⟩, by decide, by decide⟩
theorem witness_inv_step : ∃ t, step (inBatch s0 10) = .next t ∧ t.phase = .batch 9 := ⟨_, rfl, by decide⟩
/-- StepsNeverStop: a time that goes back. -/
theorem witness_time_backwards : (let s := { s0 with now := 8, inbox := [.reset 7] }
    s.phase = .idle ∧ s.inbox = .reset 7 :: [] ∧ (HostOp.reset 7).time < s.now) := by decide
/-- StepsNeverStop: a load outside the host's contract. -/
theorem witness_refused_load : step { s0 with inbox := [.load [] 79 0] } = .refused .loadOffset := rfl

end Sys2Proof.Tests
end

section
/-! The instruction fetch (30_encoding.md R51): a byte read and the fetched word under each address policy, and the step
whose fetch fails. -/

namespace Sys2Proof.Machine

/-! ## A byte read under `fault` (R36, R37) -/

theorem State.memRead_fault_of_lt {s : State} (h : s.params.addrPolicy = .fault) {a : Nat} (ha : a < 4096) :
    s.memRead a = some (Mem.read s.mem a) := by
  simp [State.memRead, h, effAddr_fault, ha]

theorem State.memRead_fault_of_ge {s : State} (h : s.params.addrPolicy = .fault) {a : Nat} (ha : 4096 ≤ a) :
    s.memRead a = none := by
  simp [State.memRead, h, effAddr_fault, Nat.not_lt.mpr ha]

/-! ## The fetched word (R51) -/

/-- The word of two bytes is their concatenation: as numbers, `hi <<< 8` and `lo` have no bit in common. -/
theorem wordOfBytes_eq_append (hi lo : Byte) : wordOfBytes hi lo = hi ++ lo := by
  apply BitVec.eq_of_toNat_eq
  have hor : hi.toNat <<< 8 ||| lo.toNat = hi.toNat * 256 + lo.toNat := by
    rw [← Nat.shiftLeft_add_eq_or_of_lt lo.isLt, Nat.shiftLeft_eq]
  rw [BitVec.toNat_append, hor, wordOfBytes, BitVec.toNat_ofNat]
  exact Nat.mod_eq_of_lt (by omega)

/-- When both bytes are read, the fetch answers their concatenation, the byte at PC above the other. -/
theorem State.fetch_of_memRead {s : State} {hi lo : Byte} (hhi : s.memRead s.pc.toNat = some hi)
    (hlo : s.memRead (s.pc.toNat + 1) = some lo) : s.fetch = some (hi ++ lo) := by
  simp [State.fetch, hhi, hlo, wordOfBytes_eq_append]

/-- When the byte at PC + 1 cannot be read, the fetch fails, whatever the byte at PC. -/
theorem State.fetch_of_memRead_low_none {s : State} (hlo : s.memRead (s.pc.toNat + 1) = none) : s.fetch = none := by
  cases hhi : s.memRead s.pc.toNat <;> simp [State.fetch, hhi, hlo]

theorem State.fetch_wrap {s : State} (h : s.params.addrPolicy = .wrap) :
    s.fetch = some (Mem.read s.mem (s.pc.toNat % 4096) ++ Mem.read s.mem ((s.pc.toNat + 1) % 4096)) :=
  State.fetch_of_memRead (s.memRead_wrap h _) (s.memRead_wrap h _)

/-- Under `fault` the fetch answers a word when the byte at PC + 1 is still in memory. -/
theorem State.fetch_fault_of_lt {s : State} (h : s.params.addrPolicy = .fault) (hpc : s.pc.toNat < 4095) :
    s.fetch = some (Mem.read s.mem s.pc.toNat ++ Mem.read s.mem (s.pc.toNat + 1)) :=
  State.fetch_of_memRead (State.memRead_fault_of_lt h (by omega)) (State.memRead_fault_of_lt h (by omega))

theorem State.fetch_fault_of_ge {s : State} (h : s.params.addrPolicy = .fault) (hpc : 4095 ≤ s.pc.toNat) :
    s.fetch = none :=
  State.fetch_of_memRead_low_none (State.memRead_fault_of_ge h (by omega))

/-- A step whose fetch fails raises BadAddress at PC, with no opcode (R62, R118). -/
theorem State.stepInstruction_of_fetch_none {s : State} (hf : s.fault = none) (hw : s.fetch = none) :
    s.stepInstruction = .next (s.raiseFault .badAddress none) := by
  simp [State.stepInstruction, hf, hw]

/-- Settles O5, one clause per policy and, under `fault`, per side of the last PC whose second byte is in memory. -/
theorem fetchReadsBigEndianWord : Obligations.FetchReadsBigEndianWord := fun _ =>
  ⟨State.fetch_wrap, State.fetch_fault_of_lt,
    fun h hpc hf => State.stepInstruction_of_fetch_none hf (State.fetch_fault_of_ge h hpc)⟩

end Sys2Proof.Machine
end

section
/-! The formats NNN, XKK and XYF of 30_encoding.md R53 as numbers, what the decoder's fields read from them, and the
decoding of the control family's words. -/

namespace Sys2Proof.Machine

/-! ## The formats as numbers -/

/-- Concatenation as a sum: the low part has no bit in common with the shifted high part. -/
theorem toNat_append_eq_add {m n : Nat} (hi : BitVec m) (lo : BitVec n) :
    (hi ++ lo).toNat = hi.toNat * 2 ^ n + lo.toNat := by
  rw [BitVec.toNat_append, ← Nat.shiftLeft_add_eq_or_of_lt lo.isLt, Nat.shiftLeft_eq]

theorem toNat_formatNNN (o1 : BitVec 4) (nnn : Addr12) :
    (formatNNN o1 nnn).toNat = o1.toNat * 4096 + nnn.toNat :=
  toNat_append_eq_add o1 nnn

theorem toNat_formatXKK (o1 : BitVec 4) (x : Reg) (kk : Byte) :
    (formatXKK o1 x kk).toNat = o1.toNat * 4096 + x.val * 256 + kk.toNat := by
  simp only [formatXKK, toNat_append_eq_add, BitVec.toNat_ofNat]
  omega

theorem toNat_formatXYF (o1 : BitVec 4) (x y : Reg) (f : BitVec 4) :
    (formatXYF o1 x y f).toNat = o1.toNat * 4096 + x.val * 256 + y.val * 16 + f.toNat := by
  simp only [formatXYF, toNat_append_eq_add, BitVec.toNat_ofNat]
  omega

/-! ## The fields of a word in each format -/

@[simp] theorem fieldO1_formatNNN (o1 : BitVec 4) (nnn : Addr12) : fieldO1 (formatNNN o1 nnn) = o1.toNat := by
  rw [fieldO1, bitField, toNat_formatNNN]
  omega

@[simp] theorem fieldNNN_formatNNN (o1 : BitVec 4) (nnn : Addr12) : fieldNNN (formatNNN o1 nnn) = nnn := by
  apply BitVec.eq_of_toNat_eq
  rw [fieldNNN, bitField, toNat_formatNNN, BitVec.toNat_ofNat]
  omega

@[simp] theorem fieldO1_formatXKK (o1 : BitVec 4) (x : Reg) (kk : Byte) :
    fieldO1 (formatXKK o1 x kk) = o1.toNat := by
  rw [fieldO1, bitField, toNat_formatXKK]
  omega

@[simp] theorem fieldX_formatXKK (o1 : BitVec 4) (x : Reg) (kk : Byte) : fieldX (formatXKK o1 x kk) = x := by
  apply Fin.ext
  rw [fieldX, bitField, toNat_formatXKK, Fin.val_ofNat]
  omega

@[simp] theorem fieldKK_formatXKK (o1 : BitVec 4) (x : Reg) (kk : Byte) : fieldKK (formatXKK o1 x kk) = kk := by
  apply BitVec.eq_of_toNat_eq
  rw [fieldKK, bitField, toNat_formatXKK, BitVec.toNat_ofNat]
  omega

@[simp] theorem fieldO1_formatXYF (o1 : BitVec 4) (x y : Reg) (f : BitVec 4) :
    fieldO1 (formatXYF o1 x y f) = o1.toNat := by
  rw [fieldO1, bitField, toNat_formatXYF]
  omega

@[simp] theorem fieldX_formatXYF (o1 : BitVec 4) (x y : Reg) (f : BitVec 4) : fieldX (formatXYF o1 x y f) = x := by
  apply Fin.ext
  rw [fieldX, bitField, toNat_formatXYF, Fin.val_ofNat]
  omega

@[simp] theorem fieldY_formatXYF (o1 : BitVec 4) (x y : Reg) (f : BitVec 4) : fieldY (formatXYF o1 x y f) = y := by
  apply Fin.ext
  rw [fieldY, bitField, toNat_formatXYF, Fin.val_ofNat]
  omega

@[simp] theorem fieldLow4_formatXYF (o1 : BitVec 4) (x y : Reg) (f : BitVec 4) :
    fieldLow4 (formatXYF o1 x y f) = f.toNat := by
  rw [fieldLow4, bitField, toNat_formatXYF]
  omega

/-! ## The control family's words decode to their instructions (R55) -/

/-- SYS takes an address field other than those of CLS and RET. -/
theorem decodeWord_sys {nnn : Addr12} (hcls : nnn ≠ 0x0E0) (hret : nnn ≠ 0x0EE) :
    decodeWord (formatNNN 0x0 nnn) = .ok (.sys nnn) := by
  have hfield {w : Word} (h : formatNNN 0x0 nnn = w) : nnn = fieldNNN w := by rw [← h, fieldNNN_formatNNN]
  have hfamily : decodeWord (formatNNN 0x0 nnn) = decodeFamily0 (formatNNN 0x0 nnn) := by simp [decodeWord]
  have hw_cls : formatNNN 0x0 nnn ≠ 0x00E0 := fun h => hcls (hfield h)
  have hw_ret : formatNNN 0x0 nnn ≠ 0x00EE := fun h => hret (hfield h)
  rw [hfamily, decodeFamily0, if_neg hw_cls, if_neg hw_ret, fieldNNN_formatNNN]

theorem decodeWord_jp (nnn : Addr12) : decodeWord (formatNNN 0x1 nnn) = .ok (.jp nnn) := by simp [decodeWord]

theorem decodeWord_call (nnn : Addr12) : decodeWord (formatNNN 0x2 nnn) = .ok (.call nnn) := by simp [decodeWord]

theorem decodeWord_jpV0 (nnn : Addr12) : decodeWord (formatNNN 0xB nnn) = .ok (.jpV0 nnn) := by simp [decodeWord]

theorem decodeWord_seImm (x : Reg) (kk : Byte) : decodeWord (formatXKK 0x3 x kk) = .ok (.seImm x kk) := by
  simp [decodeWord]

theorem decodeWord_sneImm (x : Reg) (kk : Byte) : decodeWord (formatXKK 0x4 x kk) = .ok (.sneImm x kk) := by
  simp [decodeWord]

theorem decodeWord_seReg (x y : Reg) : decodeWord (formatXYF 0x5 x y 0x0) = .ok (.seReg x y) := by simp [decodeWord]

theorem decodeWord_sneReg (x y : Reg) : decodeWord (formatXYF 0x9 x y 0x0) = .ok (.sneReg x y) := by simp [decodeWord]

/-- Families 5 and 9 have the minor nibble 0 only (R57). -/
theorem decodeWord_skipReg_illegal {o1 f : BitVec 4} (ho : o1 = 0x5 ∨ o1 = 0x9) (hf : f ≠ 0) (x y : Reg) :
    decodeWord (formatXYF o1 x y f) = .error (.illegal (formatXYF o1 x y f)) := by
  have hlow : f.toNat ≠ 0 := fun h => hf (BitVec.eq_of_toNat_eq h)
  rcases ho with rfl | rfl <;> simp [decodeWord, hlow]

/-- The encoder writes format NNN. -/
theorem encodeNNN_eq_formatNNN (o1 : BitVec 4) (nnn : Addr12) : encodeNNN o1.toNat nnn = formatNNN o1 nnn := by
  rw [encodeNNN, ← toNat_formatNNN, BitVec.ofNat_toNat, BitVec.setWidth_eq]

end Sys2Proof.Machine
end

section
/-! Control transfer (40_control.md R65 to R77): where each post-action leaves PC, the jumps, CALL and RET on both sides
of the stack's bounds, and the conditional skips. -/

namespace Sys2Proof.Machine

/-! ## Post-actions (R65 to R67) -/

theorem State.pcNext_of_pc {s t : State} (h : t.pc = s.pc + 2) : s.pcNext t := by
  simp [State.pcNext, h, BitVec.toNat_add]

theorem State.pcSkip_of_pc {s t : State} (h : t.pc = s.pc + 4) : s.pcSkip t := by
  simp [State.pcSkip, h, BitVec.toNat_add]

theorem State.goJump_pc_toNat (s : State) {a : Nat} (h : a < 2 ^ 16) : (s.goJump a).pc.toNat = a := by
  rw [State.goJump_pc, BitVec.toNat_ofNat, Nat.mod_eq_of_lt h]

/-- A conditional skip whose condition decides `p`: PC alone changes, by 4 when `p` holds and by 2 otherwise. -/
theorem State.skipIf_result (s : State) {c : Bool} {p : Prop} [Decidable p] (hc : c = true ↔ p) :
    s.skipIf c = { s with pc := (s.skipIf c).pc } ∧
      if p then s.pcSkip (s.skipIf c) else s.pcNext (s.skipIf c) := by
  rw [State.skipIf_eq]
  refine ⟨rfl, ?_⟩
  split
  · next hp => exact State.pcSkip_of_pc (by simp [hc.mpr hp])
  · next hp => exact State.pcNext_of_pc (by simp [hc.not.mpr hp])

/-! ## CALL and RET (R71, R72) -/

/-- CALL with a free entry pushes its own address and jumps. -/
theorem exec_call_of_lt (nnn : Addr12) {s : State} (h : s.sp.val < 16) :
    exec (.call nnn) s = .next (({ s with
      stack := s.stack.set s.sp.val s.pc, sp := ⟨s.sp.val + 1, by omega⟩ } : State).goJump nnn.toNat) := by
  simp [exec, execCall, State.push_some s s.pc h]

/-- CALL on a full stack raises StackOverflow. -/
theorem exec_call_full (nnn : Addr12) {s : State} (h : s.sp.val = 16) :
    exec (.call nnn) s = .next (s.raiseFault .stackOverflow (some (encode (.call nnn)))) := by
  simp [exec, execCall, State.push_none s s.pc h]

/-- RET with a pushed frame pops it and jumps past the saved CALL. -/
theorem exec_ret_of_pos {s : State} (h : 0 < s.sp.val) :
    exec .ret s = .next (({ s with sp := ⟨s.sp.val - 1, by omega⟩ } : State).goJump
      (s.stack[s.sp.val - 1].toNat + 2)) := by
  simp [exec, execRet, State.pop_some s h]

/-- RET with no frame raises StackUnderflow. -/
theorem exec_ret_empty {s : State} (h : s.sp.val = 0) :
    exec .ret s = .next (s.raiseFault .stackUnderflow (some (encode .ret))) := by
  simp [exec, execRet, State.pop_none s h]

/-- Settles O13, one clause per side of the stack's capacity. -/
theorem callResult : Obligations.CallResult := by
  intro nnn s
  refine ⟨decodeWord_call nnn, fun hsp => ?_, fun hsp => ?_⟩
  · refine ⟨_, exec_call_of_lt nnn hsp, rfl, rfl, State.goJump_pc_toNat _ (by omega), fun j hj => ?_⟩
    simp only [State.goJump_stack, Vector.getElem_set, eq_comm]
  · have henc : encode (.call nnn) = formatNNN 0x2 nnn := encodeNNN_eq_formatNNN 0x2 nnn
    rw [exec_call_full nnn hsp, henc]
    rfl

/-- Settles O14, one clause per side of the empty stack. -/
theorem retResult : Obligations.RetResult := by
  intro s
  refine ⟨by decide, fun j hj hsp => ?_, fun hsp => exec_ret_empty hsp⟩
  have htop : s.sp.val - 1 = j := by omega
  refine ⟨_, exec_ret_of_pos (by omega), rfl, htop, ?_⟩
  simp [htop]

/-- Settles O15: one decoding per word, and the four conditions brought to `State.skipIf_result`. -/
theorem skipResults : Obligations.SkipResults := by
  intro x y kk s
  refine ⟨decodeWord_seImm x kk, decodeWord_sneImm x kk, decodeWord_seReg x y, decodeWord_sneReg x y,
    fun f hf i => ⟨?_, ?_⟩, ⟨_, rfl, s.skipIf_result beq_iff_eq⟩, ⟨_, rfl, s.skipIf_result bne_iff_ne⟩,
    ⟨_, rfl, s.skipIf_result beq_iff_eq⟩, ⟨_, rfl, s.skipIf_result bne_iff_ne⟩⟩
  · exact ne_of_eq_of_ne (decodeWord_skipReg_illegal (.inl rfl) hf x y) nofun
  · exact ne_of_eq_of_ne (decodeWord_skipReg_illegal (.inr rfl) hf x y) nofun

/-- Settles O12: each jump writes PC alone, and no target reaches 2^16. -/
theorem jumpResults : Obligations.JumpResults := by
  intro nnn s
  exact ⟨decodeWord_sys, decodeWord_jp nnn, decodeWord_jpV0 nnn,
    ⟨_, rfl, rfl, s.goJump_pc_toNat (by omega)⟩,
    ⟨_, rfl, rfl, s.goJump_pc_toNat (by omega)⟩,
    ⟨_, rfl, rfl, s.goJump_pc_toNat (by omega)⟩⟩

end Sys2Proof.Machine
end

section
/-! The post-action of every instruction (40_control.md R65, R66, R68), from what the instructions whose end depends on
the state can end in. -/

namespace Sys2Proof.Machine

/-! ## What the instructions with a data address end in (R97 to R99, R107) -/

theorem exec_drw_cases {x y : Reg} {n : Fin 16} {s t : State} (h : exec (.drw x y n) s = .next t) :
    (∃ sprite, s.readBytes s.i.toNat n.val = some sprite ∧
      t = (({ s with pend := (s.pend.draw (s.getV x) (s.getV y) sprite).1 } : State).setV vF
        (flagByte (s.pend.draw (s.getV x) (s.getV y) sprite).2)).goNext) ∨
    (s.readBytes s.i.toNat n.val = none ∧ t = s.raiseFault .badAddress (some (encode (.drw x y n)))) := by
  cases hr : s.readBytes s.i.toNat n.val with
  | some sprite => exact .inl ⟨sprite, rfl, by simpa [exec, execDrw, hr] using h.symm⟩
  | none => exact .inr ⟨rfl, by simpa [exec, execDrw, hr] using h.symm⟩

theorem exec_ldBVx_cases {x : Reg} {s t : State} (h : exec (.ldBVx x) s = .next t) :
    (∃ u, s.writeBytes s.i.toNat (bcdDigits (s.getV x)) = some u ∧ t = u.goNext) ∨
    (s.writeBytes s.i.toNat (bcdDigits (s.getV x)) = none ∧
      t = s.raiseFault .badAddress (some (encode (.ldBVx x)))) := by
  cases hw : s.writeBytes s.i.toNat (bcdDigits (s.getV x)) with
  | some u => exact .inl ⟨u, rfl, by simpa [exec, execLdBVx, hw] using h.symm⟩
  | none => exact .inr ⟨rfl, by simpa [exec, execLdBVx, hw] using h.symm⟩

theorem exec_ldMemVx_cases {x : Reg} {s t : State} (h : exec (.ldMemVx x) s = .next t) :
    (∃ u, s.writeBytes s.i.toNat (s.regsUpTo x) = some u ∧ t = u.goNext) ∨
    (s.writeBytes s.i.toNat (s.regsUpTo x) = none ∧
      t = s.raiseFault .badAddress (some (encode (.ldMemVx x)))) := by
  cases hw : s.writeBytes s.i.toNat (s.regsUpTo x) with
  | some u => exact .inl ⟨u, rfl, by simpa [exec, execLdMemVx, hw] using h.symm⟩
  | none => exact .inr ⟨rfl, by simpa [exec, execLdMemVx, hw] using h.symm⟩

theorem exec_ldVxMem_cases {x : Reg} {s t : State} (h : exec (.ldVxMem x) s = .next t) :
    (∃ bytes, s.readBytes s.i.toNat (x.val + 1) = some bytes ∧ t = (s.setRegsFrom 0 bytes).goNext) ∨
    (s.readBytes s.i.toNat (x.val + 1) = none ∧
      t = s.raiseFault .badAddress (some (encode (.ldVxMem x)))) := by
  cases hr : s.readBytes s.i.toNat (x.val + 1) with
  | some bytes => exact .inl ⟨bytes, rfl, by simpa [exec, execLdVxMem, hr] using h.symm⟩
  | none => exact .inr ⟨rfl, by simpa [exec, execLdVxMem, hr] using h.symm⟩

/-! ## Operations that leave PC -/

theorem State.writeBytes_pc {s u : State} {a : Nat} {bytes : List Byte} (h : s.writeBytes a bytes = some u) :
    u.pc = s.pc := by
  rw [State.writeBytes_frame bytes h]

theorem State.setRegsFrom_pc (s : State) (j : Nat) (bytes : List Byte) : (s.setRegsFrom j bytes).pc = s.pc := by
  rw [State.setRegsFrom_frame]

theorem State.pressed_pc (s : State) (v : Byte) : (s.pressed v).2.pc = s.pc := by
  rw [State.pressed_frame]

/-! ## Fx0A -/

/-- Fx0A takes the oldest key event, or waits on an empty queue and changes nothing (R112). -/
theorem exec_ldVxK_cases {x : Reg} {s t : State} (h : exec (.ldVxK x) s = .next t) :
    (∃ k rest, s.queue = k :: rest ∧ t = ({ s with queue := rest } : State).finishReg x (k.setWidth 8)) ∨
    (s.queue = [] ∧ t = s) := by
  cases hq : s.queue with
  | cons k rest => exact .inl ⟨k, rest, rfl, by simpa [exec, execLdVxK, State.keyPop, hq] using h.symm⟩
  | nil => exact .inr ⟨rfl, by simpa [exec, execLdVxK, State.keyPop, State.goWait, hq] using h.symm⟩

/-! ## Post-actions read off the answer -/

/-- An instruction that answers a state with PC moved by 2 ends in Next. -/
theorem State.pcNext_of_next {s u t : State} (h : (.next u : Result) = .next t) (hu : u.pc = s.pc + 2) :
    s.pcNext t := by
  cases h
  exact State.pcNext_of_pc hu

/-- An instruction that ends in a conditional skip ends in Next or in Skip. -/
theorem State.pcNext_or_pcSkip_of_skipIf {s u t : State} {c : Bool} (h : (.next (u.skipIf c) : Result) = .next t)
    (hu : u.pc = s.pc) : s.pcNext t ∨ s.pcSkip t := by
  cases h
  cases c with
  | false => exact .inl (State.pcNext_of_pc (congrArg (· + 2) hu))
  | true => exact .inr (State.pcSkip_of_pc (congrArg (· + 4) hu))

/-- Settles O16, by cases on the instruction: a jump is excluded, an instruction with a data address ends in Next or has
raised BadAddress, a skip moves PC by 2 or 4, Fx0A depends on the queue, and every other one ends in Next. -/
theorem postActionOfEveryInstruction : Obligations.PostActionOfEveryInstruction := by
  intro i s t h _ ht hjump hret
  cases i with
  | sys nnn | jp nnn | call nnn | jpV0 nnn => exact absurd (hjump nnn) (by simp)
  | ret => exact absurd rfl hret
  | drw x y n =>
    obtain ⟨sprite, -, rfl⟩ | ⟨-, rfl⟩ := exec_drw_cases h
    · exact .inl (State.pcNext_of_pc rfl)
    · simp at ht
  | ldBVx x =>
    obtain ⟨u, hu, rfl⟩ | ⟨-, rfl⟩ := exec_ldBVx_cases h
    · exact .inl (State.pcNext_of_pc (by simp [State.writeBytes_pc hu]))
    · simp at ht
  | ldMemVx x =>
    obtain ⟨u, hu, rfl⟩ | ⟨-, rfl⟩ := exec_ldMemVx_cases h
    · exact .inl (State.pcNext_of_pc (by simp [State.writeBytes_pc hu]))
    · simp at ht
  | ldVxMem x =>
    obtain ⟨bytes, -, rfl⟩ | ⟨-, rfl⟩ := exec_ldVxMem_cases h
    · exact .inl (State.pcNext_of_pc (by simp [State.setRegsFrom_pc]))
    · simp at ht
  | seImm x kk =>
    exact (State.pcNext_or_pcSkip_of_skipIf h rfl).imp_right fun hs => .inl ⟨hs, .inl ⟨x, kk, .inl rfl⟩⟩
  | sneImm x kk =>
    exact (State.pcNext_or_pcSkip_of_skipIf h rfl).imp_right fun hs => .inl ⟨hs, .inl ⟨x, kk, .inr rfl⟩⟩
  | seReg x y =>
    exact (State.pcNext_or_pcSkip_of_skipIf h rfl).imp_right fun hs => .inl ⟨hs, .inr (.inl ⟨x, y, .inl rfl⟩)⟩
  | sneReg x y =>
    exact (State.pcNext_or_pcSkip_of_skipIf h rfl).imp_right fun hs => .inl ⟨hs, .inr (.inl ⟨x, y, .inr rfl⟩)⟩
  | skp x =>
    exact (State.pcNext_or_pcSkip_of_skipIf h (s.pressed_pc _)).imp_right fun hs =>
      .inl ⟨hs, .inr (.inr ⟨x, .inl rfl⟩)⟩
  | sknp x =>
    exact (State.pcNext_or_pcSkip_of_skipIf h (s.pressed_pc _)).imp_right fun hs =>
      .inl ⟨hs, .inr (.inr ⟨x, .inr rfl⟩)⟩
  | ldVxK x =>
    obtain ⟨k, rest, -, rfl⟩ | ⟨hq, rfl⟩ := exec_ldVxK_cases h
    · exact .inl (State.pcNext_of_pc rfl)
    · exact .inr (.inr ⟨rfl, hq, x, rfl⟩)
  | cls | ldImm | addImm | ldReg | orReg | andReg | xorReg | addReg | subReg | shr | subnReg | shl | ldI | rnd
  | ldVxDT | ldDTVx | ldSTVx | addIVx | ldFVx => exact .inl (State.pcNext_of_next h rfl)

end Sys2Proof.Machine
end

section
/-! Registers and ALU (41_register_alu.md R79 to R90): the decoding of the family's words, the flags as numbers, and
what an instruction that ends in `State.finishReg` or `State.finishFlag` answers. -/

namespace Sys2Proof.Machine

/-! ## The family's words decode to their instructions (R55) -/

theorem decodeWord_ldImm (x : Reg) (kk : Byte) : decodeWord (formatXKK 0x6 x kk) = .ok (.ldImm x kk) := by
  simp [decodeWord]

theorem decodeWord_addImm (x : Reg) (kk : Byte) : decodeWord (formatXKK 0x7 x kk) = .ok (.addImm x kk) := by
  simp [decodeWord]

theorem decodeWord_ldReg (x y : Reg) : decodeWord (formatXYF 0x8 x y 0x0) = .ok (.ldReg x y) := by
  simp [decodeWord, decodeFamily8]

theorem decodeWord_orReg (x y : Reg) : decodeWord (formatXYF 0x8 x y 0x1) = .ok (.orReg x y) := by
  simp [decodeWord, decodeFamily8]

theorem decodeWord_andReg (x y : Reg) : decodeWord (formatXYF 0x8 x y 0x2) = .ok (.andReg x y) := by
  simp [decodeWord, decodeFamily8]

theorem decodeWord_xorReg (x y : Reg) : decodeWord (formatXYF 0x8 x y 0x3) = .ok (.xorReg x y) := by
  simp [decodeWord, decodeFamily8]

theorem decodeWord_addReg (x y : Reg) : decodeWord (formatXYF 0x8 x y 0x4) = .ok (.addReg x y) := by
  simp [decodeWord, decodeFamily8]

theorem decodeWord_subReg (x y : Reg) : decodeWord (formatXYF 0x8 x y 0x5) = .ok (.subReg x y) := by
  simp [decodeWord, decodeFamily8]

theorem decodeWord_shr (x y : Reg) : decodeWord (formatXYF 0x8 x y 0x6) = .ok (.shr x) := by
  simp [decodeWord, decodeFamily8]

theorem decodeWord_subnReg (x y : Reg) : decodeWord (formatXYF 0x8 x y 0x7) = .ok (.subnReg x y) := by
  simp [decodeWord, decodeFamily8]

theorem decodeWord_shl (x y : Reg) : decodeWord (formatXYF 0x8 x y 0xE) = .ok (.shl x) := by
  simp [decodeWord, decodeFamily8]

/-! ## The flags as numbers (R86 to R90) -/

theorem toNat_flagByte (p : Prop) [Decidable p] : (flagByte p).toNat = if p then 1 else 0 := by
  by_cases hp : p <;> simp [flagByte, hp]

theorem toNat_carryFlag (a b : Byte) : (carryFlag a b).toNat = if a.toNat + b.toNat > 255 then 1 else 0 :=
  toNat_flagByte _

theorem toNat_greaterFlag (a b : Byte) : (greaterFlag a b).toNat = if a.toNat > b.toNat then 1 else 0 :=
  toNat_flagByte _

theorem toNat_lowBitFlag (a : Byte) : (lowBitFlag a).toNat = a.toNat % 2 := by
  rw [lowBitFlag, toNat_flagByte]
  split <;> omega

theorem toNat_highBitFlag (a : Byte) : (highBitFlag a).toNat = a.toNat / 128 := by
  rw [highBitFlag, toNat_flagByte]
  split <;> omega

/-! ## The results as numbers, modulo 256 (R87 to R90) -/

theorem toNat_byteSub (a b : Byte) : (a - b).toNat = (a.toNat + 256 - b.toNat) % 256 := by
  rw [BitVec.toNat_sub]
  omega

theorem toNat_byteShiftRightOne (a : Byte) : (a >>> 1).toNat = a.toNat / 2 := by
  rw [BitVec.toNat_ushiftRight, Nat.shiftRight_one]

theorem toNat_byteShiftLeftOne (a : Byte) : (a <<< 1).toNat = a.toNat * 2 % 256 := by
  rw [BitVec.toNat_shiftLeft, Nat.shiftLeft_eq]

/-! ## The registers after the end of an instruction -/

@[simp] theorem State.getV_finishReg_self (s : State) (x : Reg) (b : Byte) : (s.finishReg x b).getV x = b :=
  s.getV_setV_self x b

theorem State.getV_finishReg_ne (s : State) {x y : Reg} (b : Byte) (h : x ≠ y) :
    (s.finishReg x b).getV y = s.getV y :=
  s.getV_setV_ne b h

/-- The result is written after the flag, so it stays also where VF is the destination (R81). -/
@[simp] theorem State.getV_finishFlag_self (s : State) (x : Reg) (f b : Byte) : (s.finishFlag x f b).getV x = b :=
  (s.setV vF f).getV_finishReg_self x b

theorem State.getV_finishFlag_vF (s : State) {x : Reg} (f b : Byte) (h : x ≠ vF) :
    (s.finishFlag x f b).getV vF = f :=
  ((s.setV vF f).getV_finishReg_ne b h).trans (s.getV_setV_self vF f)

theorem State.getV_finishFlag_ne (s : State) {x y : Reg} (f b : Byte) (hx : x ≠ y) (hf : vF ≠ y) :
    (s.finishFlag x f b).getV y = s.getV y :=
  ((s.setV vF f).getV_finishReg_ne b hx).trans (s.getV_setV_ne f hf)

/-! ## What an instruction that writes a register answers -/

/-- An instruction that ends by writing Vx alone, and what its answer satisfies besides. -/
theorem exec_finishReg {i : Instr} {s : State} {x : Reg} {b : Byte} {Q : State → Prop}
    (h : exec i s = .next (s.finishReg x b)) (hQ : Q (s.finishReg x b)) :
    ∃ t, exec i s = .next t ∧ s.onlyRegsAndPc t ∧ s.regsKeptBut t [x] ∧ s.pcNext t ∧ Q t := by
  refine ⟨_, h, ⟨rfl, fun _ => rfl⟩, fun j hj => ?_, State.pcNext_of_pc rfl, hQ⟩
  exact s.getV_finishReg_ne b (Ne.symm (List.ne_of_not_mem_cons hj))

/-- An instruction that ends by writing the flag `f` to VF and then the result `b` to Vx, both given as numbers. -/
theorem exec_finishFlag {i : Instr} {s : State} {x : Reg} {f b : Byte} {result flag : Nat}
    (h : exec i s = .next (s.finishFlag x f b)) (hb : b.toNat = result) (hf : f.toNat = flag) :
    ∃ t, exec i s = .next t ∧ s.onlyRegsAndPc t ∧ s.regsKeptBut t [x, vF] ∧ s.pcNext t ∧
      (t.getV x).toNat = result ∧ (x ≠ vF → (t.getV vF).toNat = flag) := by
  refine ⟨_, h, ⟨rfl, fun _ => rfl⟩, fun j hj => ?_, State.pcNext_of_pc rfl, ?_, fun hx => ?_⟩
  · obtain ⟨hjx, hjf⟩ : j ≠ x ∧ j ≠ vF := by simpa using hj
    exact s.getV_finishFlag_ne f b hjx.symm hjf.symm
  · rw [State.getV_finishFlag_self, hb]
  · rw [State.getV_finishFlag_vF _ _ _ hx, hf]

/-! ## The obligations -/

/-- Settles O19: all four end by writing Vx alone, and the bitwise operations act on each bit. -/
theorem logicResults : Obligations.LogicResults := by
  intro x y s
  refine ⟨decodeWord_ldReg x y, decodeWord_orReg x y, decodeWord_andReg x y, decodeWord_xorReg x y,
    exec_finishReg rfl ?_, exec_finishReg rfl fun k _ => ?_, exec_finishReg rfl fun k _ => ?_,
    exec_finishReg rfl fun k _ => ?_⟩
  · exact s.getV_finishReg_self x (s.getV y)
  · rw [State.getV_finishReg_self, BitVec.getLsbD_or]
  · rw [State.getV_finishReg_self, BitVec.getLsbD_and]
  · rw [State.getV_finishReg_self, BitVec.getLsbD_xor]

/-- Settles O20: each instruction ends by writing its flag, then its result. -/
theorem addSubResults : Obligations.AddSubResults := by
  intro x y s
  exact ⟨decodeWord_addReg x y, decodeWord_subReg x y, decodeWord_subnReg x y,
    exec_finishFlag rfl (BitVec.toNat_add _ _) (toNat_carryFlag _ _),
    exec_finishFlag rfl (toNat_byteSub _ _) (toNat_greaterFlag _ _),
    exec_finishFlag rfl (toNat_byteSub _ _) (toNat_greaterFlag _ _)⟩

/-- Settles O21: the decoder drops the y field, and each shift ends by writing the bit shifted out, then its result. -/
theorem shiftResults : Obligations.ShiftResults := by
  intro x y s
  exact ⟨decodeWord_shr x y, decodeWord_shl x y,
    exec_finishFlag rfl (toNat_byteShiftRightOne _) (toNat_lowBitFlag _),
    exec_finishFlag rfl (toNat_byteShiftLeftOne _) (toNat_highBitFlag _)⟩

/-- Settles O18: both end by writing Vx alone. -/
theorem immediateResults : Obligations.ImmediateResults := by
  intro x kk s
  refine ⟨decodeWord_ldImm x kk, decodeWord_addImm x kk, exec_finishReg rfl ?_, exec_finishReg rfl ?_⟩
  · exact s.getV_finishReg_self x kk
  · rw [State.getV_finishReg_self, BitVec.toNat_add]

end Sys2Proof.Machine
end

section
/-! Index register and memory instructions (42_index_memory.md R94 to R99): format XFF and the decoding of the family's
words, a byte and a run of bytes read or written in range, past the end of the memory under `fault`, and what each
instruction answers. An access of `n` bytes from `a` is in range when the policy is `wrap` or `a + n` is at most 4096. -/

namespace Sys2Proof.Machine

/-! ## Format XFF (R53), with its fixed byte in the place of `kk` -/

@[simp] theorem fieldO1_formatXFF (o1 : BitVec 4) (x : Reg) (ff : Byte) : fieldO1 (formatXFF o1 x ff) = o1.toNat :=
  fieldO1_formatXKK o1 x ff

@[simp] theorem fieldX_formatXFF (o1 : BitVec 4) (x : Reg) (ff : Byte) : fieldX (formatXFF o1 x ff) = x :=
  fieldX_formatXKK o1 x ff

theorem toNat_formatXFF (o1 : BitVec 4) (x : Reg) (ff : Byte) :
    (formatXFF o1 x ff).toNat = o1.toNat * 4096 + x.val * 256 + ff.toNat :=
  toNat_formatXKK o1 x ff

@[simp] theorem fieldLow8_formatXFF (o1 : BitVec 4) (x : Reg) (ff : Byte) :
    fieldLow8 (formatXFF o1 x ff) = ff.toNat := by
  rw [fieldLow8, bitField, toNat_formatXFF]
  omega

/-- The encoder writes format XFF. -/
theorem encodeXFF_eq_formatXFF (o1 : BitVec 4) (x : Reg) (ff : Byte) :
    encodeXFF o1.toNat x ff.toNat = formatXFF o1 x ff := by
  rw [encodeXFF, ← toNat_formatXFF, BitVec.ofNat_toNat, BitVec.setWidth_eq]

/-! ## The family's words decode to their instructions (R55) -/

theorem decodeWord_ldI (nnn : Addr12) : decodeWord (formatNNN 0xA nnn) = .ok (.ldI nnn) := by simp [decodeWord]

theorem decodeWord_addIVx (x : Reg) : decodeWord (formatXFF 0xF x 0x1E) = .ok (.addIVx x) := by
  simp [decodeWord, decodeFamilyF]

theorem decodeWord_ldFVx (x : Reg) : decodeWord (formatXFF 0xF x 0x29) = .ok (.ldFVx x) := by
  simp [decodeWord, decodeFamilyF]

theorem decodeWord_ldBVx (x : Reg) : decodeWord (formatXFF 0xF x 0x33) = .ok (.ldBVx x) := by
  simp [decodeWord, decodeFamilyF]

theorem decodeWord_ldMemVx (x : Reg) : decodeWord (formatXFF 0xF x 0x55) = .ok (.ldMemVx x) := by
  simp [decodeWord, decodeFamilyF]

theorem decodeWord_ldVxMem (x : Reg) : decodeWord (formatXFF 0xF x 0x65) = .ok (.ldVxMem x) := by
  simp [decodeWord, decodeFamilyF]

/-! ## One byte (R36 to R38) -/

theorem effAddr_eq_mod {p : AddrPolicy} {a : Nat} (h : p = .wrap ∨ a < 4096) : effAddr p a = some (a % 4096) := by
  cases p with
  | wrap => rfl
  | fault =>
    have ha : a < 4096 := h.resolve_left nofun
    rw [effAddr_fault, if_pos ha, Nat.mod_eq_of_lt ha]

/-- Under each policy the effective address, where there is one, is the address modulo 4096. -/
theorem mod_of_effAddr {p : AddrPolicy} {a e : Nat} (h : effAddr p a = some e) : a % 4096 = e := by
  cases p with
  | wrap => exact Option.some.inj h
  | fault =>
    by_cases ha : a < 4096
    · exact Option.some.inj ((effAddr_eq_mod (p := .fault) (.inr ha)).symm.trans h)
    · simp [effAddr_fault, ha] at h

theorem State.memRead_inRange {s : State} {a : Nat} (h : s.params.addrPolicy = .wrap ∨ a < 4096) :
    s.memRead a = some (Mem.read s.mem (a % 4096)) := by
  simp [State.memRead, effAddr_eq_mod h]

theorem State.memWrite_inRange {s : State} {a : Nat} (h : s.params.addrPolicy = .wrap ∨ a < 4096) (b : Byte) :
    s.memWrite a b = some (s.storeAt (a % 4096) b) := by
  simp [State.memWrite, effAddr_eq_mod h]

theorem State.memWrite_fault_of_ge {s : State} (h : s.params.addrPolicy = .fault) {a : Nat} (ha : 4096 ≤ a) (b : Byte) :
    s.memWrite a b = none := by
  simp [State.memWrite, h, effAddr_fault, Nat.not_lt.mpr ha]

theorem State.storeAt_sorted {s : State} (hs : s.mem.sorted) (e : Nat) (b : Byte) : (s.storeAt e b).mem.sorted := by
  unfold State.storeAt
  split
  · exact hs
  · exact Mem.write_sorted hs e b

theorem State.read_storeAt_self {s : State} (hs : s.mem.sorted) {e : Nat} (he : 80 ≤ e) (b : Byte) :
    Mem.read (s.storeAt e b).mem e = b := by
  have hfont : ¬e < fontSize := Nat.not_lt.mpr he
  rw [State.storeAt, if_neg hfont]
  exact Mem.read_write_self hs e b

theorem State.read_storeAt_ne (s : State) {e d : Nat} (h : e ≠ d) (b : Byte) :
    Mem.read (s.storeAt e b).mem d = Mem.read s.mem d := by
  unfold State.storeAt
  split
  · rfl
  · exact Mem.read_write_ne _ _ h

/-! ## A run of reads (R33, R99) -/

theorem State.readBytes_inRange {s : State} (n : Nat) : ∀ {a : Nat}, s.params.addrPolicy = .wrap ∨ a + n ≤ 4096 →
    s.readBytes a n = some ((List.range n).map fun j => Mem.read s.mem ((a + j) % 4096)) := by
  induction n with
  | zero => exact fun _ => rfl
  | succ n ih =>
    intro a h
    have hhead := State.memRead_inRange (s := s) (a := a) (h.imp_right fun h => by omega)
    have htail := ih (a := a + 1) (h.imp_right fun h => by omega)
    simp [State.readBytes, hhead, htail, List.range_succ_eq_map, Function.comp_def, Nat.add_right_comm, Nat.add_assoc]

/-- Under `fault` a run of reads that passes the last byte fails. -/
theorem State.readBytes_fault_of_gt {s : State} (hp : s.params.addrPolicy = .fault) (n : Nat) : ∀ {a : Nat}, 0 < n →
    4096 < a + n → s.readBytes a n = none := by
  induction n with
  | zero => exact fun h => absurd h (lt_irrefl 0)
  | succ n ih =>
    intro a _ ha
    by_cases hhead : 4096 ≤ a
    · simp [State.readBytes, State.memRead_fault_of_ge hp hhead]
    · have htail : s.readBytes (a + 1) n = none := ih (by omega) (by omega)
      simp [State.readBytes, htail]

/-! ## A run of writes (R33, R97, R98) -/

/-- A run of writes that completes stored its first byte and went on. -/
theorem State.writeBytes_cons {s t : State} {a : Nat} {b : Byte} {bs : List Byte}
    (h : s.writeBytes a (b :: bs) = some t) : (s.storeAt (a % 4096) b).writeBytes (a + 1) bs = some t := by
  cases hw : s.memWrite a b with
  | none => simp [State.writeBytes, hw] at h
  | some u =>
    obtain ⟨e, -, he, rfl⟩ := State.memWrite_some hw
    simpa [State.writeBytes, hw, mod_of_effAddr he] using h

theorem State.writeBytes_inRange (bytes : List Byte) : ∀ {s : State} {a : Nat},
    s.params.addrPolicy = .wrap ∨ a + bytes.length ≤ 4096 → ∃ t, s.writeBytes a bytes = some t := by
  induction bytes with
  | nil => exact fun {s} _ _ => ⟨s, rfl⟩
  | cons b bs ih =>
    intro s a h
    rw [List.length_cons] at h
    have hhead := State.memWrite_inRange (s := s) (a := a) (h.imp_right fun h => by omega) b
    have htail : s.params.addrPolicy = .wrap ∨ a + 1 + bs.length ≤ 4096 := h.imp_right fun h => by omega
    simp only [State.writeBytes, hhead]
    exact ih (by rwa [State.storeAt_params])

/-- Under `fault` a run of writes that passes the last byte fails. -/
theorem State.writeBytes_fault_of_gt (bytes : List Byte) : ∀ {s : State} {a : Nat}, s.params.addrPolicy = .fault →
    0 < bytes.length → 4096 < a + bytes.length → s.writeBytes a bytes = none := by
  induction bytes with
  | nil => exact fun _ h => absurd h (lt_irrefl 0)
  | cons b bs ih =>
    intro s a hp _ ha
    rw [List.length_cons] at ha
    by_cases hhead : 4096 ≤ a
    · simp [State.writeBytes, State.memWrite_fault_of_ge hp hhead]
    · simp only [State.writeBytes, State.memWrite_inRange (.inr (Nat.lt_of_not_le hhead))]
      exact ih (by simpa using hp) (by omega) (by omega)

/-- A run of writes leaves every byte that none of its addresses reaches. -/
theorem State.read_writeBytes_ne (bytes : List Byte) : ∀ {s t : State} {a d : Nat}, s.writeBytes a bytes = some t →
    (∀ j < bytes.length, d ≠ (a + j) % 4096) → Mem.read t.mem d = Mem.read s.mem d := by
  induction bytes with
  | nil =>
    intro s t a d h _
    rw [Option.some.inj h]
  | cons b bs ih =>
    intro s t a d h hd
    have hhead : a % 4096 ≠ d := (hd 0 (by simp)).symm
    have htail : ∀ j < bs.length, d ≠ (a + 1 + j) % 4096 := fun j hj => by
      rw [Nat.add_right_comm]
      exact hd (j + 1) (by simpa using hj)
    rw [ih (State.writeBytes_cons h) htail, s.read_storeAt_ne hhead]

/-- A run of at most 4096 writes leaves each of its bytes that is not aimed at the font at its address: the addresses
differ, so no later write of the run reaches it. -/
theorem State.read_writeBytes_getElem (bytes : List Byte) : ∀ {s t : State} {a : Nat}, s.mem.sorted →
    bytes.length ≤ 4096 → s.writeBytes a bytes = some t → ∀ j (hj : j < bytes.length), 80 ≤ (a + j) % 4096 →
      Mem.read t.mem ((a + j) % 4096) = bytes[j] := by
  induction bytes with
  | nil => exact fun _ _ _ _ hj => absurd hj (Nat.not_lt_zero _)
  | cons b bs ih =>
    intro s t a hs hlen h j hj hfont
    rw [List.length_cons] at hlen
    have htail := State.writeBytes_cons h
    cases j with
    | zero =>
      rw [State.read_writeBytes_ne bs htail fun k hk => by omega]
      exact State.read_storeAt_self hs hfont b
    | succ j =>
      have hadd : a + (j + 1) = a + 1 + j := by omega
      rw [hadd] at hfont ⊢
      exact ih (State.storeAt_sorted hs _ _) (by omega) htail j (by simpa using hj) hfont

/-! ## What the instructions answer -/

/-- An instruction that ends by writing I alone, the value given as a number. -/
theorem exec_setI {i : Instr} {s : State} {w : Word} {result : Nat} (h : exec i s = .next (s.setI w).goNext)
    (hw : w.toNat = result) :
    ∃ t, exec i s = .next t ∧ t = { s with i := t.i, pc := t.pc } ∧ s.pcNext t ∧ t.i.toNat = result :=
  ⟨_, h, rfl, State.pcNext_of_pc rfl, hw⟩

theorem exec_ldBVx_of_some {x : Reg} {s u : State} (h : s.writeBytes s.i.toNat (bcdDigits (s.getV x)) = some u) :
    exec (.ldBVx x) s = .next u.goNext := by
  simp [exec, execLdBVx, h]

theorem exec_ldBVx_of_none {x : Reg} {s : State} (h : s.writeBytes s.i.toNat (bcdDigits (s.getV x)) = none) :
    exec (.ldBVx x) s = .next (s.raiseFault .badAddress (some (formatXFF 0xF x 0x33))) := by
  rw [← encodeXFF_eq_formatXFF]
  simp [exec, execLdBVx, h, encode]

theorem exec_ldMemVx_of_some {x : Reg} {s u : State} (h : s.writeBytes s.i.toNat (s.regsUpTo x) = some u) :
    exec (.ldMemVx x) s = .next u.goNext := by
  simp [exec, execLdMemVx, h]

theorem exec_ldMemVx_of_none {x : Reg} {s : State} (h : s.writeBytes s.i.toNat (s.regsUpTo x) = none) :
    exec (.ldMemVx x) s = .next (s.raiseFault .badAddress (some (formatXFF 0xF x 0x55))) := by
  rw [← encodeXFF_eq_formatXFF]
  simp [exec, execLdMemVx, h, encode]

theorem exec_ldVxMem_of_some {x : Reg} {s : State} {bytes : List Byte}
    (h : s.readBytes s.i.toNat (x.val + 1) = some bytes) :
    exec (.ldVxMem x) s = .next (s.setRegsFrom 0 bytes).goNext := by
  simp [exec, execLdVxMem, h]

theorem exec_ldVxMem_of_none {x : Reg} {s : State} (h : s.readBytes s.i.toNat (x.val + 1) = none) :
    exec (.ldVxMem x) s = .next (s.raiseFault .badAddress (some (formatXFF 0xF x 0x65))) := by
  rw [← encodeXFF_eq_formatXFF]
  simp [exec, execLdVxMem, h, encode]

/-- The end of a store that completes: memory and PC alone change, PC by 2. -/
theorem State.goNext_of_writeBytes {s u : State} {a : Nat} {bytes : List Byte} (h : s.writeBytes a bytes = some u) :
    u.goNext = { s with mem := u.goNext.mem, pc := u.goNext.pc } ∧ s.pcNext u.goNext := by
  refine ⟨?_, State.pcNext_of_pc (by rw [State.goNext_pc, State.writeBytes_pc h])⟩
  rw [State.writeBytes_frame bytes h]
  rfl

/-- The end of a register load: registers and PC alone change, PC by 2. -/
theorem State.goNext_of_setRegsFrom (s : State) (j : Nat) (bytes : List Byte) :
    s.onlyRegsAndPc (s.setRegsFrom j bytes).goNext ∧ s.pcNext (s.setRegsFrom j bytes).goNext := by
  refine ⟨?_, State.pcNext_of_pc (by rw [State.goNext_pc, State.setRegsFrom_pc])⟩
  rw [State.setRegsFrom_frame]
  exact ⟨rfl, fun _ => rfl⟩

theorem State.regsUpTo_getElem (s : State) (x j : Reg) (h : j.val < (s.regsUpTo x).length) :
    (s.regsUpTo x)[j.val] = s.getV j := by
  simp [State.regsUpTo, State.getV_eq]

/-! ## The obligations -/

/-- Settles O25: the run holds three bytes, so an address above the font is the first, the second or the third one's, or
no write reaches it. -/
theorem decimalDigitsResult : Obligations.DecimalDigitsResult := by
  intro x s hwf
  refine ⟨decodeWord_ldBVx x, fun hin => ?_, fun hp hi => ?_⟩
  · obtain ⟨u, hu⟩ := State.writeBytes_inRange (bcdDigits (s.getV x)) hin
    obtain ⟨hframe, hpc⟩ := State.goNext_of_writeBytes hu
    have hdigit := State.read_writeBytes_getElem _ hwf.1 (by simp [bcdDigits]) hu
    refine ⟨_, exec_ldBVx_of_some hu, hframe, hpc, fun a => ?_⟩
    rw [State.goNext_mem]
    split_ifs with hfont h0 h1 h2
    · exact State.writeBytes_font _ hu a hfont
    · exact h0 ▸ hdigit 0 (by simp [bcdDigits]) (by omega)
    · exact h1 ▸ hdigit 1 (by simp [bcdDigits]) (by omega)
    · exact h2 ▸ hdigit 2 (by simp [bcdDigits]) (by omega)
    · refine State.read_writeBytes_ne _ hu fun j hj => ?_
      have hj3 : j < 3 := hj
      interval_cases j
      · exact h0
      · exact h1
      · exact h2
  · exact exec_ldBVx_of_none (State.writeBytes_fault_of_gt _ hp (by simp [bcdDigits]) (Nat.lt_succ_of_le hi))

/-- Settles O26: byte `j` of the run is register `j`, and `j` is at most `x`. -/
theorem storeRegistersResult : Obligations.StoreRegistersResult := by
  intro x s hwf
  have hlen := s.regsUpTo_length x
  refine ⟨decodeWord_ldMemVx x, fun hin => ?_, fun hp hi => ?_⟩
  · obtain ⟨u, hu⟩ := State.writeBytes_inRange (s.regsUpTo x) (by rwa [hlen])
    obtain ⟨hframe, hpc⟩ := State.goNext_of_writeBytes hu
    refine ⟨_, exec_ldMemVx_of_some hu, hframe, hpc, fun j hj hfont => ?_, fun a ha => ?_⟩
    · have hjlen : j.val < (s.regsUpTo x).length := hlen ▸ Nat.lt_succ_of_le hj
      rw [State.goNext_mem, State.read_writeBytes_getElem _ hwf.1 (by omega) hu j.val hjlen hfont]
      exact s.regsUpTo_getElem x j hjlen
    · rw [State.goNext_mem]
      rcases ha with hfont | hne
      · exact State.writeBytes_font _ hu a hfont
      · refine State.read_writeBytes_ne _ hu fun j hj => ?_
        exact hne ⟨j, by omega⟩ (Fin.mk_le_of_le_val (by omega))
  · exact exec_ldMemVx_of_none (State.writeBytes_fault_of_gt _ hp (by omega) (by omega))

/-- Settles O27: register `j` takes byte `j` of the run where the run reaches it. -/
theorem loadRegistersResult : Obligations.LoadRegistersResult := by
  intro x s
  refine ⟨decodeWord_ldVxMem x, fun hin => ?_, fun hp hi => ?_⟩
  · obtain ⟨hframe, hpc⟩ := s.goNext_of_setRegsFrom 0
      ((List.range (x.val + 1)).map fun j => Mem.read s.mem ((s.i.toNat + j) % 4096))
    refine ⟨_, exec_ldVxMem_of_some (State.readBytes_inRange _ hin), hframe, hpc, fun j => ?_⟩
    rw [State.getV_congr (State.goNext_v _), State.getV_setRegsFrom _ _ _ _ (by simp)]
    have hj : j.val < x.val + 1 ↔ j ≤ x := Nat.lt_succ_iff
    simp [hj]
  · exact exec_ldVxMem_of_none (State.readBytes_fault_of_gt hp _ (Nat.succ_pos _) (Nat.lt_succ_of_le hi))

/-- Settles O24: each of the three writes I alone, and neither `nnn` nor `Vx * 5` reaches 2^16. -/
theorem indexResults : Obligations.IndexResults := by
  intro x nnn s
  refine ⟨decodeWord_ldI nnn, decodeWord_addIVx x, decodeWord_ldFVx x, exec_setI rfl ?_, exec_setI rfl ?_,
    exec_setI rfl ?_⟩
  · exact BitVec.toNat_setWidth_of_le (by decide)
  · rw [BitVec.toNat_add, BitVec.toNat_setWidth_of_le (by decide)]
  · rw [BitVec.toNat_ofNat, Nat.mod_eq_of_lt (by omega)]

end Sys2Proof.Machine
end

section
/-! Display (43_display.md R102 to R106): CLS, and the blit of a set of pixels as the xor of the plane with their cover,
composed from one pixel to the bits of a sprite row to the rows of a sprite. -/

namespace Sys2Proof.Machine

/-- Settles O31: CLS writes the blank plane and ends in Next. -/
theorem clearScreenResult : Obligations.ClearScreenResult := fun _ =>
  ⟨by decide, _, rfl, rfl, State.pcNext_of_pc rfl, fun c r _ _ => Plane.pixel_blank c r⟩

/-! ## What a blit of covered pixels answers (R106) -/

/-- `out` is the plane `p` with its pixels under `cover` flipped, and the collision so far, `coll`, raised if one of them
was on. Pixels outside the plane count for nothing, whatever `cover` says of them (R105). -/
structure Plane.Blits (p : Plane) (coll : Bool) (cover : Nat → Nat → Bool) (out : Plane × Bool) : Prop where
  pixel : ∀ c r, c < 64 → r < 32 → out.1.pixel c r = (p.pixel c r ^^ cover c r)
  collision : out.2 = true ↔ coll = true ∨ ∃ c r, c < 64 ∧ r < 32 ∧ cover c r = true ∧ p.pixel c r = true

/-- Only the cover inside the plane counts. -/
theorem Plane.Blits.congr {p : Plane} {coll : Bool} {cover cover' : Nat → Nat → Bool} {out : Plane × Bool}
    (h : p.Blits coll cover out) (heq : ∀ c r, c < 64 → r < 32 → cover' c r = cover c r) : p.Blits coll cover' out where
  pixel c r hc hr := by rw [h.pixel c r hc hr, heq c r hc hr]
  collision := by
    rw [h.collision]
    refine or_congr_right (exists₂_congr fun c r => and_congr_right fun hc => and_congr_right fun hr => ?_)
    rw [heq c r hc hr]

theorem Plane.Blits.nothing (p : Plane) (coll : Bool) : p.Blits coll (fun _ _ => false) (p, coll) where
  pixel := by simp
  collision := by simp

theorem Plane.Blits.onePixel (p : Plane) (coll : Bool) {c r : Nat} (hc : c < 64) (hr : r < 32) :
    p.Blits coll (fun c' r' => decide (c' = c ∧ r' = r)) (p.toggle c r, coll || p.pixel c r) where
  pixel c' r' _ _ := by
    rw [Plane.pixel_toggle]
    by_cases h : c' = c ∧ r' = r
    · obtain ⟨rfl, rfl⟩ := h
      simp [hc, hr]
    · have hne : ¬(c = c' ∧ r = r' ∧ r < 32 ∧ c < 64) := fun ⟨hcc, hrr, _⟩ => h ⟨hcc.symm, hrr.symm⟩
      simp [h, hne]
  collision := by
    rw [Bool.or_eq_true]
    refine or_congr_right ⟨fun h => ⟨c, r, hc, hr, by simp, h⟩, fun ⟨c', r', _, _, h, hon⟩ => ?_⟩
    obtain ⟨rfl, rfl⟩ := of_decide_eq_true h
    exact hon

/-- Two blits in a row, of covers that share no pixel, are one blit of their union: the first leaves every pixel that the
second flips. -/
theorem Plane.Blits.trans {p : Plane} {coll : Bool} {cover₁ cover₂ : Nat → Nat → Bool} {mid out : Plane × Bool}
    (h₁ : p.Blits coll cover₁ mid) (h₂ : mid.1.Blits mid.2 cover₂ out)
    (hdisj : ∀ c r, cover₂ c r = true → cover₁ c r = false) :
    p.Blits coll (fun c r => cover₁ c r || cover₂ c r) out where
  pixel c r hc hr := by
    rw [h₂.pixel c r hc hr, h₁.pixel c r hc hr]
    cases h : cover₂ c r with
    | false => simp
    | true => simp [hdisj c r h]
  collision := by
    have hkept : ∀ c r, c < 64 → r < 32 → cover₂ c r = true → mid.1.pixel c r = p.pixel c r := fun c r hc hr h => by
      rw [h₁.pixel c r hc hr, hdisj c r h, Bool.xor_false]
    rw [h₂.collision, h₁.collision, or_assoc]
    refine or_congr_right ⟨?_, ?_⟩
    · rintro (⟨c, r, hc, hr, h, hon⟩ | ⟨c, r, hc, hr, h, hon⟩)
      · exact ⟨c, r, hc, hr, by simp [h], hon⟩
      · exact ⟨c, r, hc, hr, by simp [h], hkept c r hc hr h ▸ hon⟩
    · rintro ⟨c, r, hc, hr, h, hon⟩
      rcases Bool.or_eq_true_iff.mp h with h | h
      · exact .inl ⟨c, r, hc, hr, h, hon⟩
      · exact .inr ⟨c, r, hc, hr, h, (hkept c r hc hr h).trans hon⟩

/-! ## The pixels a sprite covers, row by row and bit by bit (R103) -/

theorem spriteCovers_nil (ox oy c r : Nat) : spriteCovers [] ox oy c r = false := by
  have hrow : ¬(oy ≤ r ∧ r < oy) := by omega
  simp [spriteCovers, hrow]

/-- What a sprite covers lies in its box of eight columns and one row per byte. -/
theorem inBox_of_spriteCovers {rows : List Byte} {ox oy c r : Nat} (h : spriteCovers rows ox oy c r = true) :
    ox ≤ c ∧ c < ox + 8 ∧ oy ≤ r ∧ r < oy + rows.length :=
  of_decide_eq_true (Bool.and_eq_true_iff.mp h).1

theorem row_eq_of_spriteCovers_singleton {row : Byte} {ox oy c r : Nat} (h : spriteCovers [row] ox oy c r = true) :
    r = oy := by
  obtain ⟨-, -, hge, hlt⟩ := inBox_of_spriteCovers h
  exact Nat.le_antisymm (Nat.le_of_lt_succ hlt) hge

/-- A sprite covers what its first row covers and what the rest covers from one row below. -/
theorem spriteCovers_cons (row : Byte) (rows : List Byte) (ox oy c r : Nat) :
    spriteCovers (row :: rows) ox oy c r = (spriteCovers [row] ox oy c r || spriteCovers rows ox (oy + 1) c r) := by
  rcases Nat.lt_trichotomy r oy with h | rfl | h
  · have habove : ¬oy ≤ r := by omega
    have habove' : ¬oy + 1 ≤ r := by omega
    simp [spriteCovers, habove, habove']
  · simp [spriteCovers]
  · obtain ⟨k, rfl⟩ : ∃ k, r = oy + 1 + k := ⟨r - (oy + 1), by omega⟩
    have hfirst : ¬oy + 1 + k < oy + 1 := by omega
    have hindex : oy + 1 + k - oy = k + 1 := by omega
    have hge : oy ≤ oy + 1 + k := by omega
    have hlen : oy + (rows.length + 1) = oy + 1 + rows.length := by omega
    simp [spriteCovers, hfirst, hindex, hge, hlen]

/-- The pixels that the bits `bs` of the sprite row `row` cover. -/
def bitsCover (row : Byte) (ox oy : Nat) (bs : List Nat) (c r : Nat) : Bool :=
  spriteCovers [row] ox oy c r && decide (7 - (c - ox) ∈ bs)

theorem bitsCover_nil (row : Byte) (ox oy c r : Nat) : bitsCover row ox oy [] c r = false := by simp [bitsCover]

theorem bitsCover_allBits (row : Byte) (ox oy c r : Nat) :
    bitsCover row ox oy [7, 6, 5, 4, 3, 2, 1, 0] c r = spriteCovers [row] ox oy c r := by
  have hbit : 7 - (c - ox) ∈ [7, 6, 5, 4, 3, 2, 1, 0] := by
    simp only [List.mem_cons, List.not_mem_nil]
    omega
  rw [bitsCover, decide_eq_true hbit, Bool.and_true]

/-- Bit `b` covers one pixel where it is set and none where it is clear. -/
theorem bitsCover_cons (row : Byte) (ox oy : Nat) {b : Nat} (hb : b < 8) (bs : List Nat) (c r : Nat) :
    bitsCover row ox oy (b :: bs) c r =
      (decide (c = ox + (7 - b) ∧ r = oy) && row.getLsbD b || bitsCover row ox oy bs c r) := by
  by_cases h : c = ox + (7 - b) ∧ r = oy
  · obtain ⟨rfl, rfl⟩ := h
    have hin : ox + (7 - b) < ox + 8 := by omega
    have hbit : 7 - (7 - b) = b := by omega
    cases hset : row.getLsbD b <;> simp [bitsCover, spriteCovers, hin, hbit, hset]
  · cases hrow : spriteCovers [row] ox oy c r with
    | false => simp [bitsCover, hrow, h]
    | true =>
      obtain ⟨hge, hlt, -⟩ := inBox_of_spriteCovers hrow
      have hbit : 7 - (c - ox) ≠ b := fun heq => h ⟨by omega, row_eq_of_spriteCovers_singleton hrow⟩
      simp [bitsCover, h, hbit]

/-- A set bit that is not listed covers no pixel of the listed ones. -/
theorem bitsCover_of_not_mem {row : Byte} {ox oy : Nat} {b : Nat} (hb : b < 8) {bs : List Nat} (h : b ∉ bs) :
    bitsCover row ox oy bs (ox + (7 - b)) oy = false := by
  have hbit : 7 - (7 - b) = b := by omega
  simp [bitsCover, hbit, h]

/-! ## The blit of the model (R106) -/

/-- One sprite row at a row of the plane, over any bits of it, each listed once. -/
theorem Plane.blits_blitBits (row : Byte) (ox : Nat) {r : Nat} (hr : r < 32) (bs : List Nat) :
    ∀ (p : Plane) (coll : Bool), bs.Nodup → (∀ b ∈ bs, b < 8) →
      p.Blits coll (bitsCover row ox r bs) (p.blitBits ox r row coll bs) := by
  induction bs with
  | nil => exact fun p coll _ _ => (Blits.nothing p coll).congr fun c r' _ _ => bitsCover_nil row ox r c r'
  | cons b bs ih =>
    intro p coll hnodup hbits
    obtain ⟨hnew, hnodup⟩ := List.nodup_cons.mp hnodup
    obtain ⟨hb, hbits⟩ := List.forall_mem_cons.mp hbits
    have hcons := bitsCover_cons row ox r hb bs
    rw [Plane.blitBits]
    split_ifs with hclip hset
    · refine (ih p coll hnodup hbits).congr fun c r' hc _ => ?_
      have hne : c ≠ ox + (7 - b) := by omega
      simp [hcons, hne]
    · refine ((Blits.onePixel p coll (Nat.lt_of_not_le hclip) hr).trans (ih _ _ hnodup hbits) ?_).congr ?_
      · intro c r' h
        refine decide_eq_false ?_
        rintro ⟨rfl, rfl⟩
        rw [bitsCover_of_not_mem hb hnew] at h
        cases h
      · intro c r' _ _
        rw [hcons, hset, Bool.and_true]
    · refine (ih p coll hnodup hbits).congr fun c r' _ _ => ?_
      simp [hcons, hset]

/-- A sprite from any row, and with any collision so far. -/
theorem Plane.blits_blitRows (ox : Nat) (rows : List Byte) : ∀ (p : Plane) (r : Nat) (coll : Bool),
    p.Blits coll (spriteCovers rows ox r) (p.blitRows ox r coll rows) := by
  induction rows with
  | nil => exact fun p r coll => (Blits.nothing p coll).congr fun c r' _ _ => spriteCovers_nil ox r c r'
  | cons row rows ih =>
    intro p r coll
    have hcons := spriteCovers_cons row rows ox r
    rw [Plane.blitRows]
    split_ifs with hclip
    · refine (ih p (r + 1) coll).congr fun c r' _ hr' => ?_
      have hfirst : spriteCovers [row] ox r c r' = false := Bool.eq_false_iff.mpr fun h => by
        have hrow := row_eq_of_spriteCovers_singleton h
        omega
      rw [hcons, hfirst, Bool.false_or]
    · have hrow : p.Blits coll (spriteCovers [row] ox r) (p.blitBits ox r row coll [7, 6, 5, 4, 3, 2, 1, 0]) :=
        (blits_blitBits row ox (Nat.lt_of_not_le hclip) _ p coll (by decide) (by decide)).congr
          fun c r' _ _ => (bitsCover_allBits row ox r c r').symm
      refine (hrow.trans (ih _ (r + 1) _) fun c r' h => ?_).congr fun c r' _ _ => hcons c r'
      refine Bool.eq_false_iff.mpr fun hfirst => ?_
      have hfirst := row_eq_of_spriteCovers_singleton hfirst
      obtain ⟨-, -, hrest, -⟩ := inBox_of_spriteCovers h
      omega

/-- Settles O32: the blit of the whole sprite from its reduced origin, with no collision before it. -/
theorem blitPixels : Obligations.BlitPixels := fun p vx vy rows => by
  obtain ⟨hpixel, hcollision⟩ := p.blits_blitRows (vx.toNat % 64) rows (vy.toNat % 32) false
  exact ⟨hpixel, hcollision.trans (by simp)⟩

end Sys2Proof.Machine
end

section
/-! Keypad and timers (44_keypad_timer.md R109 to R111): the decoding of the key tests' words, the answer of a test and
the queue after it in each key mode, and what an instruction that ends in a test and a skip answers. -/

namespace Sys2Proof.Machine

/-! ## The key tests' words decode to their instructions (R55) -/

theorem decodeWord_skp (x : Reg) : decodeWord (formatXFF 0xE x 0x9E) = .ok (.skp x) := by
  simp [decodeWord, decodeFamilyE]

theorem decodeWord_sknp (x : Reg) : decodeWord (formatXFF 0xE x 0xA1) = .ok (.sknp x) := by
  simp [decodeWord, decodeFamilyE]

/-! ## The key test (R109) -/

/-- In queue mode a key is pressed when one of the pending events names it. -/
theorem State.pressed_of_queueMode {s : State} (h : s.params.keyMode = .queue) (v : Byte) :
    (s.pressed v).1 = true ↔ ∃ k ∈ s.queue, k.toNat = v.toNat := by
  simp [State.pressed, State.keyDrain, h]

/-- In level mode a key is pressed when it is one of the sixteen and held. -/
theorem State.pressed_of_levelMode {s : State} (h : s.params.keyMode = .level) (v : Byte) :
    (s.pressed v).1 = true ↔ v.toNat < 16 ∧ s.keyDown.getLsbD v.toNat = true := by
  simp [State.pressed, h]

/-- A key test empties the queue in queue mode, whatever it answers, and changes nothing in level mode. -/
theorem State.pressed_state (s : State) (v : Byte) :
    (s.pressed v).2 = { s with queue := if s.params.keyMode = .queue then [] else s.queue } := by
  cases h : s.params.keyMode <;> simp [State.pressed, State.keyDrain, h]

/-- An instruction that ends by testing a key and then skipping on a condition that decides `p` (R110, R111). -/
theorem exec_keyTest {i : Instr} {s : State} {v : Byte} {c : Bool} {p : Prop} [Decidable p]
    (h : exec i s = .next ((s.pressed v).2.skipIf c)) (hc : c = true ↔ p) :
    ∃ t, exec i s = .next t ∧
      t = { s with queue := if s.params.keyMode = .queue then [] else s.queue, pc := t.pc } ∧
      if p then s.pcSkip t else s.pcNext t := by
  rw [State.pressed_state] at h
  exact ⟨_, h, State.skipIf_result _ hc⟩

/-- Settles O36: the key mode's rule says that the test's answer is `pressed`, and SKNP skips on its negation. -/
theorem keyTestResults : Obligations.KeyTestResults := by
  intro x s pressed
  refine ⟨decodeWord_skp x, decodeWord_sknp x, fun hqueue hlevel => ?_⟩
  have hanswer : (s.pressed (s.getV x)).1 = true ↔ pressed = true := by
    cases hmode : s.params.keyMode with
    | queue => exact (State.pressed_of_queueMode hmode _).trans (hqueue hmode).symm
    | level => exact (State.pressed_of_levelMode hmode _).trans (hlevel hmode).symm
  have hnegated : (!(s.pressed (s.getV x)).1) = true ↔ ¬pressed = true := by
    rw [Bool.not_eq_true', ← Bool.not_eq_true, hanswer]
  exact ⟨exec_keyTest rfl hanswer, by simpa only [ite_not] using exec_keyTest (i := .sknp x) rfl hnegated⟩

end Sys2Proof.Machine
end

section
/-! The word of a decoded instruction (30_encoding.md R53, R55): each format rebuilds a word from its fields, so the
encoder gives back the word that was decoded, but for SHR and SHL, whose `y` field the decoder ignores. -/

namespace Sys2Proof

/-! ## A word from its fields (R52, R53) -/

theorem encodeNNN_of_fields {w : Word} {o1 : Nat} (ho : fieldO1 w = o1) : encodeNNN o1 (fieldNNN w) = w := by
  subst ho
  apply BitVec.eq_of_toNat_eq
  simp only [encodeNNN, fieldO1, fieldNNN, bitField, BitVec.toNat_ofNat]
  omega

theorem encodeXKK_of_fields {w : Word} {o1 : Nat} (ho : fieldO1 w = o1) :
    encodeXKK o1 (fieldX w) (fieldKK w) = w := by
  subst ho
  apply BitVec.eq_of_toNat_eq
  simp only [encodeXKK, fieldO1, fieldX, fieldKK, bitField, BitVec.toNat_ofNat, Fin.val_ofNat]
  omega

theorem encodeXYF_of_fields {w : Word} {o1 f : Nat} (ho : fieldO1 w = o1) (hf : fieldLow4 w = f) :
    encodeXYF o1 (fieldX w) (fieldY w) f = w := by
  subst ho hf
  apply BitVec.eq_of_toNat_eq
  simp only [encodeXYF, fieldO1, fieldX, fieldY, fieldLow4, bitField, BitVec.toNat_ofNat, Fin.val_ofNat]
  omega

theorem encodeXFF_of_fields {w : Word} {o1 ff : Nat} (ho : fieldO1 w = o1) (hff : fieldLow8 w = ff) :
    encodeXFF o1 (fieldX w) ff = w := by
  subst ho hff
  apply BitVec.eq_of_toNat_eq
  simp only [encodeXFF, fieldO1, fieldX, fieldLow8, bitField, BitVec.toNat_ofNat, Fin.val_ofNat]
  omega

/-- The sprite height is the low nibble. -/
theorem fieldLow4_eq_val_fieldN (w : Word) : fieldLow4 w = (fieldN w).val :=
  (Nat.mod_mod _ 16).symm

/-! ## The encoding of a decoded instruction, family by family (R55) -/

/-- The instructions whose every bit the decoder reads: all but SHR and SHL. -/
def Instr.readsWholeWord : Instr → Prop
  | .shr _ | .shl _ => False
  | _ => True

theorem encode_of_decodeFamily0 {w : Word} {i : Instr} (ho : fieldO1 w = 0x0) (h : decodeFamily0 w = .ok i) :
    encode i = w := by
  unfold decodeFamily0 at h
  split_ifs at h with hcls hret <;> cases h
  · exact hcls.symm
  · exact hret.symm
  · exact encodeNNN_of_fields ho

theorem encode_of_decodeFamily8 {w : Word} {i : Instr} (ho : fieldO1 w = 0x8) (h : decodeFamily8 w = .ok i)
    (hi : i.readsWholeWord) : encode i = w := by
  unfold decodeFamily8 at h
  split at h <;> cases h
  case h_7 | h_9 => exact hi.elim -- SHR and SHL
  all_goals
    next hlow => exact encodeXYF_of_fields ho hlow

theorem encode_of_decodeFamilyE {w : Word} {i : Instr} (ho : fieldO1 w = 0xE) (h : decodeFamilyE w = .ok i) :
    encode i = w := by
  unfold decodeFamilyE at h
  split at h <;> cases h
  all_goals
    next hlow => exact encodeXFF_of_fields ho hlow

theorem encode_of_decodeFamilyF {w : Word} {i : Instr} (ho : fieldO1 w = 0xF) (h : decodeFamilyF w = .ok i) :
    encode i = w := by
  unfold decodeFamilyF at h
  split at h <;> cases h
  all_goals
    next hlow => exact encodeXFF_of_fields ho hlow

/-- The word of an instruction that reads its whole word is the word it was decoded from: a line per major opcode. -/
theorem encode_of_decodeWord {w : Word} {i : Instr} (h : decodeWord w = .ok i) (hi : i.readsWholeWord) :
    encode i = w := by
  unfold decodeWord at h
  split at h
  next ho => exact encode_of_decodeFamily0 ho h
  next ho => cases h; exact encodeNNN_of_fields ho
  next ho => cases h; exact encodeNNN_of_fields ho
  next ho => cases h; exact encodeXKK_of_fields ho
  next ho => cases h; exact encodeXKK_of_fields ho
  next ho => split_ifs at h with hlow; cases h; exact encodeXYF_of_fields ho hlow
  next ho => cases h; exact encodeXKK_of_fields ho
  next ho => cases h; exact encodeXKK_of_fields ho
  next ho => exact encode_of_decodeFamily8 ho h hi
  next ho => split_ifs at h with hlow; cases h; exact encodeXYF_of_fields ho hlow
  next ho => cases h; exact encodeNNN_of_fields ho
  next ho => cases h; exact encodeNNN_of_fields ho
  next ho => cases h; exact encodeXKK_of_fields ho
  next ho => cases h; exact encodeXYF_of_fields ho (fieldLow4_eq_val_fieldN w)
  next ho => exact encode_of_decodeFamilyE ho h
  next ho => exact encode_of_decodeFamilyF ho h
  next => cases h

end Sys2Proof
end

section
/-! The fault of an instruction (60_exceptions.md R118, R119, R121): which fault it raises in a state, that the fault is
precise, and the accesses that raise BadAddress under `fault`. -/

namespace Sys2Proof.Machine

/-! ## Operations that leave the fault status -/

theorem State.skipIf_fault (s : State) (c : Bool) : (s.skipIf c).fault = s.fault := by
  rw [State.skipIf_eq]

theorem State.pressed_fault (s : State) (v : Byte) : (s.pressed v).2.fault = s.fault := by
  rw [State.pressed_frame]

theorem State.writeBytes_fault {s u : State} {a : Nat} {bytes : List Byte} (h : s.writeBytes a bytes = some u) :
    u.fault = s.fault := by
  rw [State.writeBytes_frame bytes h]

theorem State.setRegsFrom_fault (s : State) (j : Nat) (bytes : List Byte) :
    (s.setRegsFrom j bytes).fault = s.fault := by
  rw [State.setRegsFrom_frame]

/-! ## The fault an instruction raises -/

/-- The fault that an instruction raises in `s`: a stack fault of CALL or RET (R71, R72), or BadAddress where a run of
bytes cannot be read or written (R121). `exec_of_faultOf_some` and `exec_of_faultOf_none` tie it to `exec`. -/
def State.faultOf (s : State) : Instr → Option FaultKind
  | .call _ => if s.sp.val = 16 then some .stackOverflow else none
  | .ret => if s.sp.val = 0 then some .stackUnderflow else none
  | .drw _ _ n => if s.readBytes s.i.toNat n.val = none then some .badAddress else none
  | .ldBVx x => if s.writeBytes s.i.toNat (bcdDigits (s.getV x)) = none then some .badAddress else none
  | .ldMemVx x => if s.writeBytes s.i.toNat (s.regsUpTo x) = none then some .badAddress else none
  | .ldVxMem x => if s.readBytes s.i.toNat (x.val + 1) = none then some .badAddress else none
  | _ => none

/-- An instruction that raises a fault answers the state before it with the fault's record, and its own word there. -/
theorem exec_of_faultOf_some {i : Instr} {s : State} {k : FaultKind} (h : s.faultOf i = some k) :
    exec i s = .next (s.raiseFault k (some (encode i))) := by
  cases i with
  | call | ret | drw | ldBVx | ldMemVx | ldVxMem =>
    obtain ⟨hfails, hk⟩ := Option.ite_none_right_eq_some.mp h
    cases hk
    simp [exec, execCall, State.push_none, execRet, State.pop_none, execDrw, execLdBVx, execLdMemVx, execLdVxMem,
      hfails]
  | _ => nomatch h

/-- Every other instruction leaves the fault status. -/
theorem exec_of_faultOf_none {i : Instr} {s t : State} (h : s.faultOf i = none) (ht : exec i s = .next t) :
    t.fault = s.fault := by
  cases i with
  | call nnn =>
    have hsp : s.sp.val ≠ 16 := by simpa [State.faultOf] using h
    rw [exec_call_of_lt nnn (by omega)] at ht
    cases ht
    rfl
  | ret =>
    have hsp : s.sp.val ≠ 0 := by simpa [State.faultOf] using h
    rw [exec_ret_of_pos (by omega)] at ht
    cases ht
    rfl
  | drw x y n =>
    obtain ⟨sprite, -, rfl⟩ | ⟨hr, -⟩ := exec_drw_cases ht
    · rfl
    · simp [State.faultOf, hr] at h
  | ldBVx x =>
    obtain ⟨u, hu, rfl⟩ | ⟨hw, -⟩ := exec_ldBVx_cases ht
    · exact (State.goNext_fault u).trans (State.writeBytes_fault hu)
    · simp [State.faultOf, hw] at h
  | ldMemVx x =>
    obtain ⟨u, hu, rfl⟩ | ⟨hw, -⟩ := exec_ldMemVx_cases ht
    · exact (State.goNext_fault u).trans (State.writeBytes_fault hu)
    · simp [State.faultOf, hw] at h
  | ldVxMem x =>
    obtain ⟨bytes, -, rfl⟩ | ⟨hr, -⟩ := exec_ldVxMem_cases ht
    · exact State.setRegsFrom_fault _ _ _
    · simp [State.faultOf, hr] at h
  | ldVxK x =>
    obtain ⟨k, rest, -, rfl⟩ | ⟨-, rfl⟩ := exec_ldVxK_cases ht <;> rfl
  | seImm | sneImm | seReg | sneReg =>
    cases ht
    exact State.skipIf_fault _ _
  | skp | sknp =>
    cases ht
    exact (State.skipIf_fault _ _).trans (State.pressed_fault _ _)
  | cls | sys | jp | jpV0 | ldImm | addImm | ldReg | orReg | andReg | xorReg | addReg | subReg | shr | subnReg | shl
  | ldI | rnd | ldVxDT | ldDTVx | ldSTVx | addIVx | ldFVx =>
    cases ht
    rfl

/-- A record found after an instruction in a state without a fault is the one the instruction raised. -/
theorem exec_raised {i : Instr} {s t : State} {f : FaultRecord} (hs : s.fault = none) (h : exec i s = .next t)
    (hf : t.fault = some f) : s.faultOf i = some f.kind ∧ t = s.raiseFault f.kind (some (encode i)) := by
  cases hk : s.faultOf i with
  | none =>
    rw [exec_of_faultOf_none hk h, hs] at hf
    cases hf
  | some k =>
    rw [exec_of_faultOf_some hk] at h
    cases h
    cases hf
    exact ⟨rfl, rfl⟩

/-! ## Precision (R118, R119) -/

/-- No instruction that raises a fault ignores a bit of its word. -/
theorem readsWholeWord_of_faultOf {i : Instr} {s : State} {k : FaultKind} (h : s.faultOf i = some k) :
    i.readsWholeWord := by
  cases i with
  | shr | shl => nomatch h
  | _ => trivial

/-- A record found after an instruction step was raised with the word fetched: in the fetch, in the decoder, or in the
instruction, whose encoding is then that word. -/
theorem State.stepInstruction_raised {s t : State} {f : FaultRecord} (hs : s.fault = none)
    (h : s.stepInstruction = .next t) (hf : t.fault = some f) : ∃ k, t = s.raiseFault k s.fetch := by
  obtain ⟨hhalt, -⟩ | ⟨-, hw, hstep⟩ | ⟨w, e, -, hw, -, hstep⟩ | ⟨w, i, -, hw, hdec, hstep⟩ :=
    s.stepInstruction_cases
  · simp [hs] at hhalt
  · rw [hstep, ← hw] at h
    cases h
    exact ⟨_, rfl⟩
  · rw [hstep, ← hw] at h
    cases h
    exact ⟨_, rfl⟩
  · obtain ⟨hk, ht⟩ := exec_raised hs (hstep ▸ h) hf
    rw [encode_of_decodeWord hdec (readsWholeWord_of_faultOf hk), ← hw] at ht
    exact ⟨_, ht⟩

/-- Settles O42: raising a fault with the word fetched changes the fault status alone. -/
theorem faultsArePrecise : Obligations.FaultsArePrecise := by
  intro s t f h hs hf
  obtain ⟨k, rfl⟩ := State.stepInstruction_raised hs h hf
  cases hf
  exact ⟨rfl, rfl, rfl⟩

/-! ## The accesses that raise BadAddress under `fault` (R121) -/

/-- Under `fault` a fetch fails exactly when its second byte lies past the memory. -/
theorem State.fetch_eq_none_iff {s : State} (hp : s.params.addrPolicy = .fault) :
    s.fetch = none ↔ 4096 ≤ s.pc.toNat + 1 := by
  refine ⟨fun h => ?_, fun h => State.fetch_fault_of_ge hp (by omega)⟩
  by_contra hpc
  rw [State.fetch_fault_of_lt hp (by omega)] at h
  cases h

/-- Under `fault` a run of reads fails exactly when it passes the last byte. -/
theorem State.readBytes_eq_none_iff {s : State} (hp : s.params.addrPolicy = .fault) (a n : Nat) :
    s.readBytes a n = none ↔ 0 < n ∧ 4096 < a + n := by
  refine ⟨fun h => ?_, fun ⟨hn, ha⟩ => State.readBytes_fault_of_gt hp n hn ha⟩
  by_contra hin
  rcases Nat.eq_zero_or_pos n with rfl | hn
  · cases h
  · rw [State.readBytes_inRange n (.inr (by omega))] at h
    cases h

/-- Under `fault` a run of writes fails exactly when it passes the last byte. -/
theorem State.writeBytes_eq_none_iff {s : State} (hp : s.params.addrPolicy = .fault) (a : Nat) {bytes : List Byte}
    (hlen : 0 < bytes.length) : s.writeBytes a bytes = none ↔ 4096 < a + bytes.length := by
  refine ⟨fun h => ?_, State.writeBytes_fault_of_gt bytes hp hlen⟩
  by_contra hin
  obtain ⟨u, hu⟩ := State.writeBytes_inRange (s := s) (a := a) bytes (.inr (by omega))
  rw [hu] at h
  cases h

section UnderFault
variable {s : State} (hp : s.params.addrPolicy = .fault)
include hp

theorem State.faultOf_drw (x y : Reg) (n : Fin 16) :
    s.faultOf (.drw x y n) = some .badAddress ↔ 1 ≤ n.val ∧ 4096 ≤ s.i.toNat + n.val - 1 := by
  rw [State.faultOf, Option.ite_none_right_eq_some, and_iff_left rfl, State.readBytes_eq_none_iff hp]
  omega

theorem State.faultOf_ldBVx (x : Reg) : s.faultOf (.ldBVx x) = some .badAddress ↔ 4096 ≤ s.i.toNat + 2 := by
  have hlen : (bcdDigits (s.getV x)).length = 3 := rfl
  rw [State.faultOf, Option.ite_none_right_eq_some, and_iff_left rfl,
    State.writeBytes_eq_none_iff hp _ (by omega), hlen]
  omega

theorem State.faultOf_ldMemVx (x : Reg) :
    s.faultOf (.ldMemVx x) = some .badAddress ↔ 4096 ≤ s.i.toNat + x.val := by
  have hlen := s.regsUpTo_length x
  rw [State.faultOf, Option.ite_none_right_eq_some, and_iff_left rfl,
    State.writeBytes_eq_none_iff hp _ (by omega), hlen]
  omega

theorem State.faultOf_ldVxMem (x : Reg) :
    s.faultOf (.ldVxMem x) = some .badAddress ↔ 4096 ≤ s.i.toNat + x.val := by
  rw [State.faultOf, Option.ite_none_right_eq_some, and_iff_left rfl, State.readBytes_eq_none_iff hp]
  omega

/-- The instructions that raise BadAddress, and where. -/
theorem State.faultOf_badAddress {i : Instr} (h : s.faultOf i = some .badAddress) :
    (∃ x y n, i = .drw x y n ∧ 1 ≤ n.val ∧ 4096 ≤ s.i.toNat + n.val - 1) ∨
    (∃ x, i = .ldBVx x ∧ 4096 ≤ s.i.toNat + 2) ∨
    (∃ x, (i = .ldMemVx x ∨ i = .ldVxMem x) ∧ 4096 ≤ s.i.toNat + x.val) := by
  cases i with
  | drw x y n => exact .inl ⟨x, y, n, rfl, (State.faultOf_drw hp x y n).mp h⟩
  | ldBVx x => exact .inr (.inl ⟨x, rfl, (State.faultOf_ldBVx hp x).mp h⟩)
  | ldMemVx x => exact .inr (.inr ⟨x, .inl rfl, (State.faultOf_ldMemVx hp x).mp h⟩)
  | ldVxMem x => exact .inr (.inr ⟨x, .inr rfl, (State.faultOf_ldVxMem hp x).mp h⟩)
  | call | ret => simp [State.faultOf] at h
  | _ => nomatch h

end UnderFault

/-- Settles O45: a failing fetch, and each instruction's own condition, both ways. -/
theorem badAddressConditions : Obligations.BadAddressConditions := by
  intro s hp hs
  refine ⟨State.fetch_eq_none_iff hp, fun hpc => ?_, fun x y n hn hi => ?_, fun x hi => ?_,
    fun x hi => ⟨?_, ?_⟩, fun i t f h hf hkind => ?_⟩
  · exact State.stepInstruction_of_fetch_none hs ((State.fetch_eq_none_iff hp).mpr hpc)
  · exact exec_of_faultOf_some ((State.faultOf_drw hp x y n).mpr ⟨hn, hi⟩)
  · exact exec_of_faultOf_some ((State.faultOf_ldBVx hp x).mpr hi)
  · exact exec_of_faultOf_some ((State.faultOf_ldMemVx hp x).mpr hi)
  · exact exec_of_faultOf_some ((State.faultOf_ldVxMem hp x).mpr hi)
  · exact State.faultOf_badAddress hp (hkind ▸ (exec_raised hs h hf).1)

end Sys2Proof.Machine
end

section
/-! Decoding and encoding as inverses (30_encoding.md R50 to R57): the encoder writes the formats of R53, so a decoding
per format settles `decodeWord (encode i)`; the converse for SHR and SHL, which drop their `y` field; and the words that
no instruction has. -/

namespace Sys2Proof.Machine

/-! ## The encoder writes the formats of R53 -/

theorem encodeXKK_eq_formatXKK (o1 : BitVec 4) (x : Reg) (kk : Byte) :
    encodeXKK o1.toNat x kk = formatXKK o1 x kk := by
  rw [encodeXKK, ← toNat_formatXKK, BitVec.ofNat_toNat, BitVec.setWidth_eq]

theorem encodeXYF_eq_formatXYF (o1 : BitVec 4) (x y : Reg) (f : BitVec 4) :
    encodeXYF o1.toNat x y f.toNat = formatXYF o1 x y f := by
  rw [encodeXYF, ← toNat_formatXYF, BitVec.ofNat_toNat, BitVec.setWidth_eq]

/-- The word of DRW, whose minor nibble is the sprite height. -/
theorem encode_drw (x y : Reg) (n : Fin 16) :
    encode (.drw x y n) = formatXYF 0xD x y (BitVec.ofNat 4 n.val) := by
  have hn : (BitVec.ofNat 4 n.val).toNat = n.val := by
    rw [BitVec.toNat_ofNat]
    exact Nat.mod_eq_of_lt n.isLt
  rw [← encodeXYF_eq_formatXYF, hn]
  rfl

/-! ## The remaining words decode to their instructions (R55) -/

theorem decodeWord_rnd (x : Reg) (kk : Byte) : decodeWord (formatXKK 0xC x kk) = .ok (.rnd x kk) := by
  simp [decodeWord]

@[simp] theorem fieldN_formatXYF (o1 : BitVec 4) (x y n : Fin 16) :
    fieldN (formatXYF o1 x y (BitVec.ofNat 4 n.val)) = n := by
  apply Fin.ext
  rw [← fieldLow4_eq_val_fieldN, fieldLow4_formatXYF, BitVec.toNat_ofNat]
  exact Nat.mod_eq_of_lt n.isLt

theorem decodeWord_drw (x y : Reg) (n : Fin 16) :
    decodeWord (formatXYF 0xD x y (BitVec.ofNat 4 n.val)) = .ok (.drw x y n) := by
  simp only [decodeWord, fieldO1_formatXYF, fieldX_formatXYF, fieldY_formatXYF, fieldN_formatXYF]
  rfl

theorem decodeWord_ldVxDT (x : Reg) : decodeWord (formatXFF 0xF x 0x07) = .ok (.ldVxDT x) := by
  simp [decodeWord, decodeFamilyF]

theorem decodeWord_ldVxK (x : Reg) : decodeWord (formatXFF 0xF x 0x0A) = .ok (.ldVxK x) := by
  simp [decodeWord, decodeFamilyF]

theorem decodeWord_ldDTVx (x : Reg) : decodeWord (formatXFF 0xF x 0x15) = .ok (.ldDTVx x) := by
  simp [decodeWord, decodeFamilyF]

theorem decodeWord_ldSTVx (x : Reg) : decodeWord (formatXFF 0xF x 0x18) = .ok (.ldSTVx x) := by
  simp [decodeWord, decodeFamilyF]

/-! ## Decoding what the encoder writes -/

theorem decodeWord_encode_of_format {i : Instr} {w : Word} (hw : encode i = w) (h : decodeWord w = .ok i) :
    decodeWord (encode i) = .ok i := by
  rw [hw, h]

/-- The decoder reads back every well-formed instruction from its word: a line per instruction, by its format. -/
theorem decodeWord_encode {i : Instr} (hwf : i.wf = true) : decodeWord (encode i) = .ok i := by
  cases i with
  | cls => decide
  | ret => decide
  | sys nnn =>
    obtain ⟨hcls, hret⟩ : nnn ≠ 0x0E0 ∧ nnn ≠ 0x0EE := by simpa [Instr.wf, sysFieldOk] using hwf
    exact decodeWord_encode_of_format (encodeNNN_eq_formatNNN 0x0 nnn) (decodeWord_sys hcls hret)
  | jp nnn => exact decodeWord_encode_of_format (encodeNNN_eq_formatNNN 0x1 nnn) (decodeWord_jp nnn)
  | call nnn => exact decodeWord_encode_of_format (encodeNNN_eq_formatNNN 0x2 nnn) (decodeWord_call nnn)
  | seImm x kk => exact decodeWord_encode_of_format (encodeXKK_eq_formatXKK 0x3 x kk) (decodeWord_seImm x kk)
  | sneImm x kk => exact decodeWord_encode_of_format (encodeXKK_eq_formatXKK 0x4 x kk) (decodeWord_sneImm x kk)
  | seReg x y => exact decodeWord_encode_of_format (encodeXYF_eq_formatXYF 0x5 x y 0x0) (decodeWord_seReg x y)
  | ldImm x kk => exact decodeWord_encode_of_format (encodeXKK_eq_formatXKK 0x6 x kk) (decodeWord_ldImm x kk)
  | addImm x kk => exact decodeWord_encode_of_format (encodeXKK_eq_formatXKK 0x7 x kk) (decodeWord_addImm x kk)
  | ldReg x y => exact decodeWord_encode_of_format (encodeXYF_eq_formatXYF 0x8 x y 0x0) (decodeWord_ldReg x y)
  | orReg x y => exact decodeWord_encode_of_format (encodeXYF_eq_formatXYF 0x8 x y 0x1) (decodeWord_orReg x y)
  | andReg x y => exact decodeWord_encode_of_format (encodeXYF_eq_formatXYF 0x8 x y 0x2) (decodeWord_andReg x y)
  | xorReg x y => exact decodeWord_encode_of_format (encodeXYF_eq_formatXYF 0x8 x y 0x3) (decodeWord_xorReg x y)
  | addReg x y => exact decodeWord_encode_of_format (encodeXYF_eq_formatXYF 0x8 x y 0x4) (decodeWord_addReg x y)
  | subReg x y => exact decodeWord_encode_of_format (encodeXYF_eq_formatXYF 0x8 x y 0x5) (decodeWord_subReg x y)
  | shr x => exact decodeWord_encode_of_format (encodeXYF_eq_formatXYF 0x8 x 0 0x6) (decodeWord_shr x 0)
  | subnReg x y => exact decodeWord_encode_of_format (encodeXYF_eq_formatXYF 0x8 x y 0x7) (decodeWord_subnReg x y)
  | shl x => exact decodeWord_encode_of_format (encodeXYF_eq_formatXYF 0x8 x 0 0xE) (decodeWord_shl x 0)
  | sneReg x y => exact decodeWord_encode_of_format (encodeXYF_eq_formatXYF 0x9 x y 0x0) (decodeWord_sneReg x y)
  | ldI nnn => exact decodeWord_encode_of_format (encodeNNN_eq_formatNNN 0xA nnn) (decodeWord_ldI nnn)
  | jpV0 nnn => exact decodeWord_encode_of_format (encodeNNN_eq_formatNNN 0xB nnn) (decodeWord_jpV0 nnn)
  | rnd x kk => exact decodeWord_encode_of_format (encodeXKK_eq_formatXKK 0xC x kk) (decodeWord_rnd x kk)
  | drw x y n => exact decodeWord_encode_of_format (encode_drw x y n) (decodeWord_drw x y n)
  | skp x => exact decodeWord_encode_of_format (encodeXFF_eq_formatXFF 0xE x 0x9E) (decodeWord_skp x)
  | sknp x => exact decodeWord_encode_of_format (encodeXFF_eq_formatXFF 0xE x 0xA1) (decodeWord_sknp x)
  | ldVxDT x => exact decodeWord_encode_of_format (encodeXFF_eq_formatXFF 0xF x 0x07) (decodeWord_ldVxDT x)
  | ldVxK x => exact decodeWord_encode_of_format (encodeXFF_eq_formatXFF 0xF x 0x0A) (decodeWord_ldVxK x)
  | ldDTVx x => exact decodeWord_encode_of_format (encodeXFF_eq_formatXFF 0xF x 0x15) (decodeWord_ldDTVx x)
  | ldSTVx x => exact decodeWord_encode_of_format (encodeXFF_eq_formatXFF 0xF x 0x18) (decodeWord_ldSTVx x)
  | addIVx x => exact decodeWord_encode_of_format (encodeXFF_eq_formatXFF 0xF x 0x1E) (decodeWord_addIVx x)
  | ldFVx x => exact decodeWord_encode_of_format (encodeXFF_eq_formatXFF 0xF x 0x29) (decodeWord_ldFVx x)
  | ldBVx x => exact decodeWord_encode_of_format (encodeXFF_eq_formatXFF 0xF x 0x33) (decodeWord_ldBVx x)
  | ldMemVx x => exact decodeWord_encode_of_format (encodeXFF_eq_formatXFF 0xF x 0x55) (decodeWord_ldMemVx x)
  | ldVxMem x => exact decodeWord_encode_of_format (encodeXFF_eq_formatXFF 0xF x 0x65) (decodeWord_ldVxMem x)

/-- A word is the big-endian word of its two bytes (R41, R51). -/
theorem wordOfBytes_hiByte_loByte (w : Word) : wordOfBytes (hiByte w) (loByte w) = w := by
  apply BitVec.eq_of_toNat_eq
  simp only [wordOfBytes, hiByte, loByte, BitVec.toNat_ofNat]
  omega

/-- Settles O6: the decoder reads back every well-formed instruction from its word, and a word from its bytes. -/
theorem decodeOfEncode : Obligations.DecodeOfEncode := by
  intro i rest hwf
  refine ⟨decodeWord_encode hwf, ?_⟩
  simp [encodeBytes, decodeBytes, wordOfBytes_hiByte_loByte, decodeWord_encode hwf]

/-! ## The word of a decoded instruction -/

/-- The decoder answers no SYS with the address field of CLS or RET: those words are CLS and RET. -/
theorem wf_of_decodeWord {w : Word} {i : Instr} (h : decodeWord w = .ok i) : i.wf = true := by
  cases i with
  | sys nnn =>
    have hw : encode (.sys nnn) = w := encode_of_decodeWord h trivial
    have hcls : nnn ≠ 0x0E0 := by
      rintro rfl
      rw [← hw] at h
      exact absurd h (by decide)
    have hret : nnn ≠ 0x0EE := by
      rintro rfl
      rw [← hw] at h
      exact absurd h (by decide)
    exact Bool.and_eq_true_iff.mpr ⟨bne_iff_ne.mpr hcls, bne_iff_ne.mpr hret⟩
  | _ => rfl

/-- Outside family 8 the decoder answers neither SHR nor SHL. -/
theorem readsWholeWord_of_decodeWord {w : Word} {i : Instr} (h : decodeWord w = .ok i) (ho : fieldO1 w ≠ 0x8) :
    i.readsWholeWord := by
  unfold decodeWord at h
  split at h
  case h_1 => unfold decodeFamily0 at h; split_ifs at h <;> cases h <;> trivial
  case h_9 ho8 => exact absurd ho8 ho
  case h_15 => unfold decodeFamilyE at h; split at h <;> cases h <;> trivial
  case h_16 => unfold decodeFamilyF at h; split at h <;> cases h <;> trivial
  case h_6 | h_10 => split_ifs at h; cases h; trivial
  all_goals cases h <;> trivial

/-- SHR and SHL come from family 8, with their own minor nibble. -/
theorem fields_of_decodeWord_shift {w : Word} {i : Instr} (h : decodeWord w = .ok i) (hi : ¬i.readsWholeWord) :
    fieldO1 w = 0x8 ∧ (i = .shr (fieldX w) ∧ fieldLow4 w = 0x6 ∨ i = .shl (fieldX w) ∧ fieldLow4 w = 0xE) := by
  have ho : fieldO1 w = 0x8 := by
    by_contra ho
    exact hi (readsWholeWord_of_decodeWord h ho)
  have hfamily : decodeFamily8 w = .ok i := by simpa [decodeWord, ho] using h
  refine ⟨ho, ?_⟩
  unfold decodeFamily8 at hfamily
  split at hfamily <;> cases hfamily
  case h_7 hlow => exact .inl ⟨rfl, hlow⟩
  case h_9 hlow => exact .inr ⟨rfl, hlow⟩
  all_goals exact absurd trivial hi

/-- Settles O7: an instruction that reads its whole word gives it back, and SHR and SHL give it back up to `y`. -/
theorem encodeOfDecode : Obligations.EncodeOfDecode := by
  intro w i h
  refine ⟨wf_of_decodeWord h, ?_⟩
  by_cases hi : i.readsWholeWord
  · exact .inl (encode_of_decodeWord h hi)
  · obtain ⟨ho, ⟨rfl, hlow⟩ | ⟨rfl, hlow⟩⟩ := fields_of_decodeWord_shift h hi
    all_goals refine .inr ⟨fieldX w, fieldY w, ?_⟩
    · exact .inl ⟨rfl, (encodeXYF_of_fields ho hlow).symm.trans (encodeXYF_eq_formatXYF 0x8 _ _ 0x6)⟩
    · exact .inr ⟨rfl, (encodeXYF_of_fields ho hlow).symm.trans (encodeXYF_eq_formatXYF 0x8 _ _ 0xE)⟩

/-! ## The illegal words (R57) -/

theorem fieldO1_eq_toNat (w : Word) : fieldO1 w = (w.extractLsb' 12 4).toNat := by
  simp [fieldO1, bitField, Nat.shiftRight_eq_div_pow]

theorem fieldLow4_eq_toNat (w : Word) : fieldLow4 w = (w.extractLsb' 0 4).toNat := by
  simp [fieldLow4, bitField]

theorem fieldLow8_eq_toNat (w : Word) : fieldLow8 w = (w.extractLsb' 0 8).toNat := by
  simp [fieldLow8, bitField]

theorem eq_ofNat_of_toNat_eq {n k : Nat} {b : BitVec n} (h : b.toNat = k) : b = BitVec.ofNat n k := by
  rw [← h, BitVec.ofNat_toNat, BitVec.setWidth_eq]

/-- The illegal minor nibbles of family 8. -/
theorem decodeFamily8_illegal_iff (w : Word) :
    (∃ e, decodeFamily8 w = .error e) ↔
      w.extractLsb' 0 4 ∈ ([0x8, 0x9, 0xA, 0xB, 0xC, 0xD, 0xF] : List (BitVec 4)) := by
  unfold decodeFamily8
  rw [fieldLow4_eq_toNat]
  generalize w.extractLsb' 0 4 = low
  split
  case h_10 =>
    simp only [imp_false] at *
    simp [← BitVec.toNat_inj]
    omega
  all_goals
    rename_i hlow
    simp [← BitVec.toNat_inj, hlow]

/-- The illegal minor bytes of family E. -/
theorem decodeFamilyE_illegal_iff (w : Word) :
    (∃ e, decodeFamilyE w = .error e) ↔ w.extractLsb' 0 8 ∉ ([0x9E, 0xA1] : List (BitVec 8)) := by
  unfold decodeFamilyE
  rw [fieldLow8_eq_toNat]
  generalize w.extractLsb' 0 8 = low
  split
  case h_3 =>
    simp only [imp_false] at *
    simp [← BitVec.toNat_inj, *]
  all_goals
    rename_i hlow
    simp [← BitVec.toNat_inj, hlow]

/-- The illegal minor bytes of family F. -/
theorem decodeFamilyF_illegal_iff (w : Word) :
    (∃ e, decodeFamilyF w = .error e) ↔
      w.extractLsb' 0 8 ∉ ([0x07, 0x0A, 0x15, 0x18, 0x1E, 0x29, 0x33, 0x55, 0x65] : List (BitVec 8)) := by
  unfold decodeFamilyF
  rw [fieldLow8_eq_toNat]
  generalize w.extractLsb' 0 8 = low
  split
  case h_10 =>
    simp only [imp_false] at *
    simp [← BitVec.toNat_inj, *]
  all_goals
    rename_i hlow
    simp [← BitVec.toNat_inj, hlow]

/-- Family 0 has no illegal word. -/
theorem decodeFamily0_legal (w : Word) (e : DecodeError) : decodeFamily0 w ≠ .error e := by
  unfold decodeFamily0
  split_ifs <;> nofun

/-- Families 5 and 9 are illegal where their minor nibble is not 0. -/
theorem minorNibbleZero_illegal_iff (w : Word) (i : Instr) :
    (∃ e, (if fieldLow4 w = 0 then .ok i else .error (.illegal w) : Except DecodeError Instr) = .error e) ↔
      w.extractLsb' 0 4 ≠ 0 := by
  have hzero : w.extractLsb' 0 4 = 0 ↔ fieldLow4 w = 0 := by
    rw [fieldLow4_eq_toNat, ← BitVec.toNat_inj]
    rfl
  rw [Ne, hzero]
  split_ifs with h <;> simp [h]

/-- Settles O8, by the major opcode: families 5 and 9 have the minor nibble 0 only, families 8, E and F their own lists,
and every other family is legal throughout. -/
theorem illegalWordPatterns : Obligations.IllegalWordPatterns := by
  intro w
  have ho1 := fieldO1_eq_toNat w
  generalize w.extractLsb' 12 4 = o1 at ho1 ⊢
  unfold decodeWord
  rw [ho1]
  split
  case h_17 =>
    simp only [imp_false] at *
    omega
  all_goals
    rename_i ho
    obtain rfl := eq_ofNat_of_toNat_eq ho
  case h_1 => simp [decodeFamily0_legal]
  case h_6 | h_10 => simp [minorNibbleZero_illegal_iff]
  case h_9 => simp [decodeFamily8_illegal_iff]
  case h_15 => simp [decodeFamilyE_illegal_iff]
  case h_16 => simp [decodeFamilyF_illegal_iff]
  all_goals simp

/-- Settles O9: the decoder evaluated on each word. -/
theorem sampleWordsDecode : Obligations.SampleWordsDecode := by
  unfold Obligations.SampleWordsDecode
  decide

end Sys2Proof.Machine
end

section
/-! What each instruction may change of the state, said once: the frame of every instruction, that each one answers a
next state, and the registers of the host and the driver that none of them touches. The statements on who writes I, the
planes, the timers, the stack and the key queue read it off. -/

namespace Sys2Proof.Machine

/-! ## The frame of an instruction -/

/-- The frame of an instruction: `s` with the fields that the instruction may write as `t` has them. `exec_frame` ties
it to `exec`. -/
def State.frame (s t : State) : Instr → State
  | .cls => { s with pc := t.pc, pend := t.pend }
  | .ret => { s with pc := t.pc, sp := t.sp, fault := t.fault }
  | .call _ => { s with pc := t.pc, sp := t.sp, stack := t.stack, fault := t.fault }
  | .sys _ | .jp _ | .jpV0 _ | .seImm _ _ | .sneImm _ _ | .seReg _ _ | .sneReg _ _ => { s with pc := t.pc }
  | .ldI _ | .addIVx _ | .ldFVx _ => { s with pc := t.pc, i := t.i }
  | .rnd _ _ => { s with pc := t.pc, v := t.v, draws := t.draws }
  | .drw _ _ _ => { s with pc := t.pc, v := t.v, pend := t.pend, fault := t.fault }
  | .skp _ | .sknp _ => { s with pc := t.pc, queue := t.queue }
  | .ldVxK _ => { s with pc := t.pc, v := t.v, queue := t.queue }
  | .ldDTVx _ => { s with pc := t.pc, dt := t.dt, tLast := t.tLast }
  | .ldSTVx _ => { s with pc := t.pc, st := t.st, tLast := t.tLast }
  | .ldBVx _ | .ldMemVx _ => { s with pc := t.pc, mem := t.mem, fault := t.fault }
  | .ldVxMem _ => { s with pc := t.pc, v := t.v, fault := t.fault }
  | _ => { s with pc := t.pc, v := t.v }

/-- A key test and a skip write PC and the queue alone. -/
theorem State.pressed_skipIf_frame {s t : State} {v : Byte} {c : Bool}
    (h : (.next ((s.pressed v).2.skipIf c) : Result) = .next t) : t = { s with pc := t.pc, queue := t.queue } := by
  cases h
  rw [State.skipIf_eq, State.pressed_state]

/-- Every instruction keeps to its frame. -/
theorem exec_frame {i : Instr} {s t : State} (h : exec i s = .next t) : t = s.frame t i := by
  cases i with
  | call nnn =>
    by_cases hsp : s.sp.val = 16
    · rw [exec_call_full nnn hsp] at h
      cases h
      rfl
    · rw [exec_call_of_lt nnn (by omega)] at h
      cases h
      rfl
  | ret =>
    by_cases hsp : s.sp.val = 0
    · rw [exec_ret_empty hsp] at h
      cases h
      rfl
    · rw [exec_ret_of_pos (by omega)] at h
      cases h
      rfl
  | drw x y n => obtain ⟨sprite, -, rfl⟩ | ⟨-, rfl⟩ := exec_drw_cases h <;> rfl
  | ldBVx x =>
    obtain ⟨u, hu, rfl⟩ | ⟨-, rfl⟩ := exec_ldBVx_cases h
    · rw [State.writeBytes_frame _ hu]
      rfl
    · rfl
  | ldMemVx x =>
    obtain ⟨u, hu, rfl⟩ | ⟨-, rfl⟩ := exec_ldMemVx_cases h
    · rw [State.writeBytes_frame _ hu]
      rfl
    · rfl
  | ldVxMem x =>
    obtain ⟨bytes, -, rfl⟩ | ⟨-, rfl⟩ := exec_ldVxMem_cases h
    · rw [State.setRegsFrom_frame]
      rfl
    · rfl
  | ldVxK x => obtain ⟨k, rest, -, rfl⟩ | ⟨-, rfl⟩ := exec_ldVxK_cases h <;> rfl
  | seImm | sneImm | seReg | sneReg =>
    cases h
    rw [State.skipIf_eq]
    rfl
  | skp | sknp => exact State.pressed_skipIf_frame h
  | cls | sys | jp | jpV0 | ldImm | addImm | ldReg | orReg | andReg | xorReg | addReg | subReg | shr | subnReg | shl
  | ldI | rnd | ldVxDT | ldDTVx | ldSTVx | addIVx | ldFVx =>
    cases h
    rfl

/-- Every instruction has a meaning and answers a next state: a fault of the block is a state too (R119). -/
theorem exec_next (i : Instr) (s : State) : ∃ t, exec i s = .next t := by
  cases i with
  | call nnn => cases hp : s.push s.pc <;> simp [exec, execCall, hp]
  | ret => cases hp : s.pop <;> simp [exec, execRet, hp]
  | drw x y n => cases hr : s.readBytes s.i.toNat n.val <;> simp [exec, execDrw, hr]
  | ldBVx x => cases hw : s.writeBytes s.i.toNat (bcdDigits (s.getV x)) <;> simp [exec, execLdBVx, hw]
  | ldMemVx x => cases hw : s.writeBytes s.i.toNat (s.regsUpTo x) <;> simp [exec, execLdMemVx, hw]
  | ldVxMem x => cases hr : s.readBytes s.i.toNat (x.val + 1) <;> simp [exec, execLdVxMem, hr]
  | ldVxK x => cases hp : s.keyPop <;> simp [exec, execLdVxK, hp]
  | _ => exact ⟨_, rfl⟩

/-! ## Who writes what -/

/-- Settles O30: I stands in the frames of three instructions. -/
theorem indexWriters : Obligations.IndexWriters := by
  intro i s t h hne
  have hframe := exec_frame h
  cases i with
  | ldI nnn => exact .inl ⟨nnn, rfl⟩
  | addIVx x => exact .inr ⟨x, .inl rfl⟩
  | ldFVx x => exact .inr ⟨x, .inr rfl⟩
  | _ => exact absurd (congrArg State.i hframe :) hne

/-- `t` has the fields of `s` that belong to the host, the driver and the display's output (R24, R26, R29, R49). -/
structure State.SameHost (s t : State) : Prop where
  keyDown : t.keyDown = s.keyDown
  rom : t.rom = s.rom
  romOffset : t.romOffset = s.romOffset
  params : t.params = s.params
  now : t.now = s.now
  cur : t.cur = s.cur
  phase : t.phase = s.phase
  inbox : t.inbox = s.inbox

/-- These fields are in no instruction's frame. -/
theorem exec_sameHost {i : Instr} {s t : State} (h : exec i s = .next t) : s.SameHost t := by
  have hframe := exec_frame h
  cases i <;>
    exact {
      keyDown := (congrArg State.keyDown hframe :)
      rom := (congrArg State.rom hframe :)
      romOffset := (congrArg State.romOffset hframe :)
      params := (congrArg State.params hframe :)
      now := (congrArg State.now hframe :)
      cur := (congrArg State.cur hframe :)
      phase := (congrArg State.phase hframe :)
      inbox := (congrArg State.inbox hframe :) }

/-- Settles O41: the host's fields are in no frame. -/
theorem hostStateUntouchedByInstructions : Obligations.HostStateUntouchedByInstructions := by
  intro i s t h
  have hhost := exec_sameHost h
  exact ⟨hhost.keyDown, hhost.rom, hhost.romOffset, hhost.params, hhost.now⟩

/-- Settles O35: the pending plane stands in the frames of CLS and DRW, the current one in none. -/
theorem planeWriters : Obligations.PlaneWriters := by
  intro i s t h
  refine ⟨(exec_sameHost h).cur, fun hne => ?_⟩
  have hframe := exec_frame h
  cases i with
  | cls => exact .inl rfl
  | drw x y n => exact .inr ⟨x, y, n, rfl⟩
  | _ => exact absurd (congrArg State.pend hframe :) hne

/-- Settles O39: DT and the timestamp stand in the frame of Fx15, ST and the timestamp in that of Fx18. -/
theorem timerWriters : Obligations.TimerWriters := by
  intro i s t h
  have hframe := exec_frame h
  cases i with
  | ldDTVx x => exact ⟨fun _ => ⟨x, rfl⟩, fun hne => absurd (congrArg State.st hframe :) hne, fun _ => ⟨x, .inl rfl⟩⟩
  | ldSTVx x => exact ⟨fun hne => absurd (congrArg State.dt hframe :) hne, fun _ => ⟨x, rfl⟩, fun _ => ⟨x, .inr rfl⟩⟩
  | _ =>
    exact ⟨fun hne => absurd (congrArg State.dt hframe :) hne, fun hne => absurd (congrArg State.st hframe :) hne,
      fun hne => absurd (congrArg State.tLast hframe :) hne⟩

/-- Settles O40: SP stands in the frames of RET and CALL, the stack in that of CALL, and the queue in those of SKP, SKNP
and Fx0A. -/
theorem stackAndQueueWriters : Obligations.StackAndQueueWriters := by
  intro i s t h
  have hframe := exec_frame h
  refine ⟨fun hne => ?_, fun hne => ?_, fun hne => ?_⟩
  · cases i with
    | ret => exact .inl rfl
    | call nnn => exact .inr ⟨nnn, rfl⟩
    | _ => exact absurd (congrArg State.sp hframe :) hne
  · cases i with
    | call nnn => exact ⟨nnn, rfl⟩
    | _ => exact absurd (congrArg State.stack hframe :) hne
  · cases i with
    | skp x => exact ⟨x, .inl rfl⟩
    | sknp x => exact ⟨x, .inr (.inl rfl)⟩
    | ldVxK x => exact ⟨x, .inr (.inr rfl)⟩
    | _ => exact absurd (congrArg State.queue hframe :) hne

end Sys2Proof.Machine
end

section
/-! Memory as the instructions see it (20_memory.md R33, R36 to R39, R47): the laws of a byte access, which addresses
a store reaches and which instructions store, the instruction word fetched after a store, and the glyph that Fx29
addresses. -/

namespace Sys2Proof.Machine

/-! ## One byte (R36 to R38) -/

/-- What a byte read gives at an effective address. -/
theorem State.memRead_of_effAddr {s : State} {a e : Nat} (h : effAddr s.params.addrPolicy a = some e) :
    s.memRead a = some (Mem.read s.mem e) := by
  simp [State.memRead, h]

/-- What a byte write does at an effective address. -/
theorem State.memWrite_of_effAddr {s : State} {a e : Nat} (h : effAddr s.params.addrPolicy a = some e) (b : Byte) :
    s.memWrite a b = some (s.storeAt e b) := by
  simp [State.memWrite, h]

/-- Without an effective address neither a read nor a write happens. -/
theorem State.access_of_effAddr_none {s : State} {a : Nat} (h : effAddr s.params.addrPolicy a = none) (b : Byte) :
    s.memRead a = none ∧ s.memWrite a b = none := by
  simp [State.memRead, State.memWrite, h]

/-- Every byte of memory after a store: the font region keeps its own (R38). -/
theorem State.read_storeAt {s : State} (hs : s.mem.sorted) (e : Nat) (b : Byte) (d : Nat) :
    Mem.read (s.storeAt e b).mem d = if d = e ∧ 80 ≤ e then b else Mem.read s.mem d := by
  split_ifs with h
  · obtain ⟨rfl, he⟩ := h
    exact State.read_storeAt_self hs he b
  · by_cases hd : d = e
    · have hfont : e < fontSize := Nat.lt_of_not_le fun he => h ⟨hd, he⟩
      rw [State.storeAt, if_pos hfont]
    · exact s.read_storeAt_ne (Ne.symm hd) b

/-- A store at an effective address keeps the canonical form. -/
theorem State.storeAt_wf {s : State} (hs : s.mem.wf) {e : Nat} (he : e < memSize) (b : Byte) :
    (s.storeAt e b).mem.wf := by
  unfold State.storeAt
  split
  · exact hs
  · exact Mem.write_wf hs he b

/-- Settles O1: an access fails without an effective address, and else reads or stores there. -/
theorem memoryAccessLaws : Obligations.MemoryAccessLaws := by
  intro s a b hwf
  refine ⟨effAddr_wrap a, effAddr_fault a, fun h => State.access_of_effAddr_none h b, fun e he => ?_⟩
  have hread := State.memRead_of_effAddr he
  refine ⟨hread, fun hfont hlt => hread.trans (congrArg some (hfont e hlt)), _, State.memWrite_of_effAddr he b, ?_,
    State.storeAt_wf hwf (effAddr_lt he) b, State.read_storeAt hwf.1 e b⟩
  rw [State.storeAt_eq]

/-! ## The stores (R33, R39) -/

/-- A store that completes had an effective address for each of its bytes. -/
theorem State.effAddr_of_writeBytes {s u : State} {a : Nat} {bytes : List Byte} (h : s.writeBytes a bytes = some u)
    {j : Nat} (hj : j < bytes.length) : effAddr s.params.addrPolicy (a + j) = some ((a + j) % 4096) := by
  refine effAddr_eq_mod (or_iff_not_imp_left.mpr fun hp => ?_)
  have hfault : s.params.addrPolicy = .fault := by
    cases hpolicy : s.params.addrPolicy with
    | wrap => exact absurd hpolicy hp
    | fault => rfl
  by_contra hge
  have hnone := (State.writeBytes_eq_none_iff hfault a (bytes := bytes) (by omega)).mpr (by omega)
  rw [hnone] at h
  cases h

/-- A byte that a store changed lies at the effective address of one of its bytes. -/
theorem State.effAddr_of_changed {s u : State} {a d : Nat} {bytes : List Byte} (h : s.writeBytes a bytes = some u)
    (hne : Mem.read u.mem d ≠ Mem.read s.mem d) :
    ∃ j < bytes.length, effAddr s.params.addrPolicy (a + j) = some d := by
  by_contra hno
  refine hne (State.read_writeBytes_ne bytes h fun j hj hd => hno ⟨j, hj, ?_⟩)
  rw [hd]
  exact State.effAddr_of_writeBytes h hj

/-- What an instruction does to memory: nothing, or a completed store of Fx33 or Fx55 at I. -/
theorem exec_mem_cases {i : Instr} {s t : State} (h : exec i s = .next t) :
    t.mem = s.mem ∨
    ∃ u bytes, s.writeBytes s.i.toNat bytes = some u ∧ t.mem = u.mem ∧
      ((∃ x, i = .ldBVx x ∧ bytes = bcdDigits (s.getV x)) ∨ (∃ x, i = .ldMemVx x ∧ bytes = s.regsUpTo x)) := by
  cases i with
  | ldBVx x =>
    obtain ⟨u, hu, rfl⟩ | ⟨-, rfl⟩ := exec_ldBVx_cases h
    · exact .inr ⟨u, _, hu, rfl, .inl ⟨x, rfl, rfl⟩⟩
    · exact .inl rfl
  | ldMemVx x =>
    obtain ⟨u, hu, rfl⟩ | ⟨-, rfl⟩ := exec_ldMemVx_cases h
    · exact .inr ⟨u, _, hu, rfl, .inr ⟨x, rfl, rfl⟩⟩
    · exact .inl rfl
  | _ => exact .inl (congrArg State.mem (exec_frame h) :)

/-- Settles O2: a store discards what it aims at the font. -/
theorem noInstructionChangesTheFont : Obligations.NoInstructionChangesTheFont := by
  intro i s t h a ha
  obtain hmem | ⟨u, bytes, hu, hmem, -⟩ := exec_mem_cases h
  · rw [hmem]
  · rw [hmem]
    exact State.writeBytes_font bytes hu a ha

/-- Settles O3: a changed byte lies at an effective address of the store, which has three bytes or x + 1. -/
theorem onlyStoresChangeMemory : Obligations.OnlyStoresChangeMemory := by
  intro i s t h a hne
  obtain hmem | ⟨u, bytes, hu, hmem, hstore⟩ := exec_mem_cases h
  · exact absurd (by rw [hmem]) hne
  · rw [hmem] at hne
    obtain ⟨j, hj, hd⟩ := State.effAddr_of_changed hu hne
    obtain ⟨x, rfl, rfl⟩ | ⟨x, rfl, rfl⟩ := hstore
    · exact .inl ⟨x, rfl, j, hj, hd⟩
    · rw [State.regsUpTo_length] at hj
      exact .inr ⟨x, rfl, j, Nat.le_of_lt_succ hj, hd⟩

/-! ## The fetch after a store (R47, R51) -/

theorem State.fetch_inRange {s : State} (h : s.params.addrPolicy = .wrap ∨ s.pc.toNat + 1 < 4096) :
    s.fetch = some (Mem.read s.mem (s.pc.toNat % 4096) ++ Mem.read s.mem ((s.pc.toNat + 1) % 4096)) :=
  State.fetch_of_memRead (State.memRead_inRange (h.imp_right fun h => by omega)) (State.memRead_inRange h)

/-- After a completed store and Next, the fetch reads each byte stored over the next instruction and not aimed at the
font. -/
theorem State.fetch_of_writeBytes {s u : State} {a : Nat} {bytes : List Byte} (hs : s.mem.sorted)
    (hlen : bytes.length ≤ 4096) (h : s.writeBytes a bytes = some u)
    (hpc : s.params.addrPolicy = .wrap ∨ s.pc.toNat + 3 < 4096) :
    ∃ hi lo : Byte, u.goNext.fetch = some (hi ++ lo) ∧ ∀ j (hj : j < bytes.length), 80 ≤ (a + j) % 4096 →
      (u.goNext.pc.toNat % 4096 = (a + j) % 4096 → hi = bytes[j]) ∧
      ((u.goNext.pc.toNat + 1) % 4096 = (a + j) % 4096 → lo = bytes[j]) := by
  obtain ⟨hframe, hnext⟩ := State.goNext_of_writeBytes h
  have hparams : u.goNext.params = s.params := (congrArg State.params hframe :)
  have hin : u.goNext.params.addrPolicy = .wrap ∨ u.goNext.pc.toNat + 1 < 4096 := by
    rw [hparams, hnext]
    exact hpc.imp_right fun hpc => by omega
  have hbyte := State.read_writeBytes_getElem bytes hs hlen h
  refine ⟨_, _, State.fetch_inRange hin, fun j hj hfont => ⟨fun heq => ?_, fun heq => ?_⟩⟩
  · rw [heq]
    exact hbyte j hj hfont
  · rw [heq]
    exact hbyte j hj hfont

/-- The digits of Fx33 as numbers, hundreds first (R97). -/
theorem toNat_bcdDigits_getElem (v : Byte) {j : Nat} (hj : j < (bcdDigits v).length) :
    (bcdDigits v)[j].toNat = v.toNat / 10 ^ (2 - j) % 10 := by
  have hv := v.isLt
  have hj3 : j < 3 := hj
  interval_cases j <;> simp [bcdDigits] <;> omega

/-- Settles O4: each store completes, and its byte `j` is the register or the digit. -/
theorem storedCodeIsFetchedNext : Obligations.StoredCodeIsFetchedNext := by
  intro s t x hwf
  refine ⟨fun hin h => ?_, fun hin h => ?_⟩
  · have hlen := s.regsUpTo_length x
    obtain ⟨u, hu⟩ := State.writeBytes_inRange (s := s) (a := s.i.toNat) (s.regsUpTo x)
      (hin.imp_right fun hin => by omega)
    rw [exec_ldMemVx_of_some hu] at h
    cases h
    obtain ⟨hi, lo, hfetch, hbytes⟩ := State.fetch_of_writeBytes hwf.1 (by omega) hu (hin.imp_right And.right)
    refine ⟨(State.goNext_of_writeBytes hu).2, hi, lo, hfetch, fun j hj hfont => ?_⟩
    have hjlen : j.val < (s.regsUpTo x).length := hlen ▸ Nat.lt_succ_of_le hj
    rw [← s.regsUpTo_getElem x j hjlen]
    exact hbytes j.val hjlen hfont
  · have hlen : (bcdDigits (s.getV x)).length = 3 := rfl
    obtain ⟨u, hu⟩ := State.writeBytes_inRange (s := s) (a := s.i.toNat) (bcdDigits (s.getV x))
      (hin.imp_right fun hin => by omega)
    rw [exec_ldBVx_of_some hu] at h
    cases h
    obtain ⟨hi, lo, hfetch, hbytes⟩ := State.fetch_of_writeBytes hwf.1 (by omega) hu (hin.imp_right And.right)
    refine ⟨(State.goNext_of_writeBytes hu).2, hi, lo, hfetch, fun j hj hfont => ?_⟩
    have hjlen : j < (bcdDigits (s.getV x)).length := by omega
    obtain ⟨hhi, hlo⟩ := hbytes j hjlen hfont
    rw [← toNat_bcdDigits_getElem _ hjlen]
    exact ⟨fun heq => congrArg _ (hhi heq), fun heq => congrArg _ (hlo heq)⟩

/-! ## Registers stored and loaded, and the glyph at I (R96, R100) -/

/-- Settles O28: the load reads at each address what the store left there. -/
theorem storeThenLoadRestoresRegisters : Obligations.StoreThenLoadRestoresRegisters := by
  intro x s t u hwf hin hfont h hmem hi hparams
  obtain ⟨-, hstore, -⟩ := storeRegistersResult x s hwf
  obtain ⟨t', ht', -, -, hbytes, -⟩ := hstore hin
  obtain ⟨-, hload, -⟩ := loadRegistersResult x u
  obtain ⟨r, hr, -, -, hregs⟩ := hload (by rwa [hparams, hi])
  rw [h] at ht'
  cases ht'
  refine ⟨r, hr, fun j hj => ?_⟩
  rw [hregs j, if_pos hj, hmem, hi]
  exact hbytes j hj (hfont j hj)

/-- The five bytes of the font table at a digit's place are its glyph (R40). -/
theorem unlisted_glyph (d : Reg) : (List.range 5).map (fun j => Mem.unlisted (d.val * 5 + j)) = glyphRows d := by
  revert d
  decide

/-- Settles O29: the five addresses lie in the font region, which holds the font table. -/
theorem fontGlyphAddressed : Obligations.FontGlyphAddressed := by
  intro x d s hfont hd
  obtain ⟨-, -, -, -, -, t, ht, hframe, -, hi⟩ := indexResults x 0 s
  have hmem : t.mem = s.mem := (congrArg State.mem hframe :)
  rw [hd] at hi
  refine ⟨t, ht, ?_⟩
  rw [State.readBytes_inRange 5 (.inr (by omega)), hi, hmem, ← unlisted_glyph]
  refine congrArg some (List.map_congr_left fun j hj => ?_)
  have hlt : d.val * 5 + j < 80 := by
    have := List.mem_range.mp hj
    omega
  rw [Nat.mod_eq_of_lt (by omega)]
  exact hfont _ hlt

end Sys2Proof.Machine
end

section
/-! What single instructions answer: CALL then RET (40_control.md R78), the random load (41_register_alu.md R91), the
writers of VF (10_state.md R14), DRW (43_display.md R107, R108) and the timer accesses (44_keypad_timer.md R113 to
R115). -/

namespace Sys2Proof.Machine

/-! ## CALL and then RET -/

/-- Settles O17: RET pops the entry that CALL pushed, which holds the address of the CALL. -/
theorem callThenRetRestores : Obligations.CallThenRetRestores := by
  intro nnn s t hsp h
  rw [exec_call_of_lt nnn hsp] at h
  cases h
  refine ⟨_, exec_ret_of_pos (Nat.succ_pos _), Fin.ext (Nat.add_sub_cancel _ 1), ?_, rfl, fun j hj hne => ?_⟩
  · simp [State.pcNext]
  · exact Vector.getElem_set_ne hsp hj (Ne.symm hne)

/-! ## RND -/

/-- Settles O22: the draw is masked bit by bit, and only its number is counted on. -/
theorem randomResult : Obligations.RandomResult := by
  intro x kk s
  refine ⟨decodeWord_rnd x kk, _, rfl, rfl, fun _ => rfl, fun j hj => ?_, State.pcNext_of_pc rfl, fun k _ => ?_⟩
  · exact State.getV_finishReg_ne _ _ (Ne.symm (List.ne_of_not_mem_cons hj))
  · rw [State.getV_finishReg_self, BitVec.getLsbD_and]

/-! ## The writers of VF -/

theorem flagByte_eq_zero_or_one (b : Bool) : flagByte b = 0 ∨ flagByte b = 1 := by
  cases b
  · exact .inl rfl
  · exact .inr rfl

/-- An instruction that writes Vx alone changes no other register. -/
theorem State.eq_of_finishReg_changed {s : State} {x y : Reg} {b : Byte}
    (h : (s.finishReg x b).getV y ≠ s.getV y) : x = y := by
  by_contra hne
  exact h (s.getV_finishReg_ne b hne)

/-- The run of reads answers one byte per address. -/
theorem State.readBytes_length {s : State} (n : Nat) : ∀ {a : Nat} {bytes : List Byte},
    s.readBytes a n = some bytes → bytes.length = n := by
  induction n with
  | zero =>
    intro a bytes h
    cases h
    rfl
  | succ n ih =>
    intro a bytes h
    simp only [State.readBytes] at h
    split at h
    · next b bs _ htail =>
      cases h
      rw [List.length_cons, ih htail]
    · cases h

/-- Fx65 changes no register above Vx. -/
theorem exec_ldVxMem_getV {x : Reg} {s t : State} (h : exec (.ldVxMem x) s = .next t) {y : Reg} (hy : x < y) :
    t.getV y = s.getV y := by
  obtain ⟨bytes, hbytes, rfl⟩ | ⟨-, rfl⟩ := exec_ldVxMem_cases h
  · have hlen := State.readBytes_length _ hbytes
    rw [State.getV_congr (State.goNext_v _), State.getV_setRegsFrom _ _ _ _ (by omega), dif_neg]
    have hxy : x.val < y.val := hy
    omega
  · rfl

/-- An instruction that changes VF names it as its destination or is a flag writer. -/
theorem exec_changes_vF {i : Instr} {s t : State} (h : exec i s = .next t) (hne : t.getV vF ≠ s.getV vF) :
    (∃ x y, i = .addReg x y ∨ i = .subReg x y ∨ i = .subnReg x y) ∨ (∃ x, i = .shr x ∨ i = .shl x) ∨
    (∃ x y n, i = .drw x y n) ∨ (∃ kk, i = .ldImm vF kk ∨ i = .addImm vF kk ∨ i = .rnd vF kk) ∨
    (∃ y, i = .ldReg vF y ∨ i = .orReg vF y ∨ i = .andReg vF y ∨ i = .xorReg vF y) ∨
    i = .ldVxDT vF ∨ i = .ldVxK vF ∨ i = .ldVxMem vF := by
  have hframe := exec_frame h
  cases i with
  | addReg | subReg | subnReg | shr | shl | drw => simp
  | ldImm | addImm | ldReg | orReg | andReg | xorReg | ldVxDT =>
    cases h
    simp [State.eq_of_finishReg_changed hne]
  | rnd x kk =>
    cases h
    have hx : x = vF := State.eq_of_finishReg_changed (s := { s with draws := s.draws + 1 }) hne
    simp [hx]
  | ldVxK x =>
    obtain ⟨k, rest, -, rfl⟩ | ⟨-, rfl⟩ := exec_ldVxK_cases h
    · have hx : x = vF := State.eq_of_finishReg_changed (s := { s with queue := rest }) hne
      simp [hx]
    · exact absurd rfl hne
  | ldVxMem x =>
    have hx : x = vF := by
      by_contra hx
      exact hne (exec_ldVxMem_getV h (Fin.lt_last_iff_ne_last.mpr hx))
    simp [hx]
  | _ => exact absurd (State.getV_congr (congrArg State.v hframe :) vF) hne

/-- Settles O23: the flag writers end by writing a flag, and a destination other than VF leaves it. -/
theorem flagWriters : Obligations.FlagWriters := by
  intro i s t h
  refine ⟨exec_changes_vF h, ?_, ?_⟩
  · rintro ⟨x, y, hx, rfl | rfl | rfl | rfl | rfl⟩
    all_goals
      cases h
      rw [State.getV_finishFlag_vF _ _ _ hx]
      exact flagByte_eq_zero_or_one _
  · rintro ⟨x, y, n, rfl⟩ hfault
    obtain ⟨sprite, -, rfl⟩ | ⟨-, rfl⟩ := exec_drw_cases h
    · rw [State.getV_congr (State.goNext_v _), State.getV_setV_self]
      exact flagByte_eq_zero_or_one _
    · cases hfault

/-! ## DRW -/

theorem exec_drw_of_some {x y : Reg} {n : Fin 16} {s : State} {sprite : List Byte}
    (h : s.readBytes s.i.toNat n.val = some sprite) :
    exec (.drw x y n) s = .next (({ s with pend := (s.pend.draw (s.getV x) (s.getV y) sprite).1 } : State).setV vF
      (flagByte (s.pend.draw (s.getV x) (s.getV y) sprite).2)).goNext := by
  simp [exec, execDrw, h]

/-- Settles O33: the sprite is the run of bytes at I, and VF takes the blit's collision bit. -/
theorem drawResult : Obligations.DrawResult := by
  intro x y n s
  refine ⟨decodeWord_drw x y n, fun hin => ?_, fun hp hn hi => ?_⟩
  · have hsprite : s.readBytes s.i.toNat n.val =
        some ((List.range n.val).map fun j => Mem.read s.mem ((s.i.toNat + j) % 4096)) := by
      rcases Nat.eq_zero_or_pos n.val with hn | hn
      · rw [hn]
        rfl
      · exact State.readBytes_inRange _ (hin.imp_right fun hin => hin.resolve_right (by omega))
    refine ⟨_, exec_drw_of_some hsprite, rfl, fun _ => rfl, fun j hj => ?_, State.pcNext_of_pc rfl, fun hn => ?_,
      _, by simp, fun j hj => by simp, rfl, ?_⟩
    · exact State.getV_setV_ne _ _ (Ne.symm (List.ne_of_not_mem_cons hj))
    · rw [hn, State.getV_congr (State.goNext_v _), State.getV_setV_self]
      exact ⟨rfl, rfl⟩
    · rw [State.getV_congr (State.goNext_v _), State.getV_setV_self]
      cases (s.pend.draw (s.getV x) (s.getV y) _).2 <;> rfl
  · rw [exec_of_faultOf_some ((State.faultOf_drw hp x y n).mpr ⟨hn, hi⟩), encode_drw]
    rfl

/-- Settles O34: a pixel flipped twice is as before; and a covered pixel that was off, as all are where the first draw
did not collide, is on for the second draw. -/
theorem drawTwiceRestores : Obligations.DrawTwiceRestores := by
  intro p vx vy rows
  obtain ⟨hpixel, hcollision⟩ := blitPixels p vx vy rows
  obtain ⟨hpixel', hcollision'⟩ := blitPixels (p.draw vx vy rows).1 vx vy rows
  refine ⟨Plane.ext_pixel fun c r hc hr => ?_, fun hoff => ?_⟩
  · rw [hpixel' c r hc hr, hpixel c r hc hr, Bool.xor_assoc, Bool.xor_self, Bool.xor_false]
  · rw [hcollision']
    refine exists₂_congr fun c r => and_congr_right fun hc => and_congr_right fun hr => and_iff_left_of_imp fun h => ?_
    have hp : p.pixel c r = false := by
      by_contra hon
      rw [hcollision.mpr ⟨c, r, hc, hr, h, by simpa using hon⟩] at hoff
      cases hoff
    rw [hpixel c r hc hr, h, hp]
    rfl

/-! ## The timer accesses -/

theorem State.tone_eq_true_iff (s : State) : s.tone = true ↔ s.st.toNat ≠ 0 := by
  rw [State.tone, decide_eq_true_iff, Nat.pos_iff_ne_zero]

/-- Settles O38: Fx07 ends by writing Vx alone, Fx15 and Fx18 by writing their timer and the timestamp. -/
theorem timerAccessResults : Obligations.TimerAccessResults := by
  intro x s
  exact ⟨decodeWord_ldVxDT x, decodeWord_ldDTVx x, decodeWord_ldSTVx x,
    exec_finishReg rfl (State.getV_finishReg_self s x s.dt),
    ⟨_, rfl, rfl, State.pcNext_of_pc rfl⟩,
    ⟨_, rfl, rfl, State.pcNext_of_pc rfl, State.tone_eq_true_iff _⟩⟩

end Sys2Proof.Machine
end

section
/-! The driver's place and the pending host operations, the model's own fields `phase` and `inbox`: no operation of an
instruction reads them, so every instruction commutes with changing them (40_control.md R64, 60_exceptions.md R136). -/

namespace Sys2Proof.Machine

/-- `s` with the driver at `p` and the host operations `b` pending. -/
def State.inDriver (s : State) (p : Phase) (b : List HostOp) : State := { s with phase := p, inbox := b }

section
variable (s : State) (p : Phase) (b : List HostOp)

/-! ## The operations of instructions -/

theorem State.memRead_inDriver (a : Nat) : (s.inDriver p b).memRead a = s.memRead a := State.memRead_congr rfl rfl a

theorem State.fetch_inDriver : (s.inDriver p b).fetch = s.fetch := by
  simp only [State.fetch, State.memRead_inDriver]
  rfl

theorem State.readBytes_inDriver (n : Nat) : ∀ a, (s.inDriver p b).readBytes a n = s.readBytes a n := by
  induction n with
  | zero => exact fun _ => rfl
  | succ n ih =>
    intro a
    simp only [State.readBytes, State.memRead_inDriver, ih]

theorem State.storeAt_inDriver (e : Nat) (v : Byte) : (s.inDriver p b).storeAt e v = (s.storeAt e v).inDriver p b := by
  rw [State.storeAt_eq, State.storeAt_eq]
  rfl

theorem State.skipIf_inDriver (c : Bool) : (s.inDriver p b).skipIf c = (s.skipIf c).inDriver p b := by
  cases c <;> rfl

theorem State.pressed_inDriver (v : Byte) :
    (s.inDriver p b).pressed v = ((s.pressed v).1, (s.pressed v).2.inDriver p b) := by
  have hparams : (s.inDriver p b).params = s.params := rfl
  cases hmode : s.params.keyMode <;> simp only [State.pressed, hparams, hmode] <;> rfl

end

variable {s t : State} (p : Phase) (b : List HostOp)

theorem State.writeBytes_inDriver (bytes : List Byte) : ∀ {s : State} {a : Nat},
    (s.inDriver p b).writeBytes a bytes = (s.writeBytes a bytes).map (·.inDriver p b) := by
  induction bytes with
  | nil => exact rfl
  | cons v bs ih =>
    intro s a
    cases he : effAddr s.params.addrPolicy a with
    | none =>
      have hfail := (State.access_of_effAddr_none he v).2
      have hfail' := (State.access_of_effAddr_none (s := s.inDriver p b) he v).2
      simp [State.writeBytes, hfail, hfail']
    | some e =>
      have hstore := State.memWrite_of_effAddr he v
      have hstore' := State.memWrite_of_effAddr (s := s.inDriver p b) he v
      simp only [State.writeBytes, hstore, hstore', State.storeAt_inDriver, ih]

theorem State.setRegsFrom_inDriver (bytes : List Byte) : ∀ (s : State) (j : Nat),
    (s.inDriver p b).setRegsFrom j bytes = (s.setRegsFrom j bytes).inDriver p b := by
  induction bytes with
  | nil => exact fun _ _ => rfl
  | cons v bs ih =>
    intro s j
    by_cases hj : j < 16
    · simp only [State.setRegsFrom, dif_pos hj]
      exact ih (s.setV ⟨j, hj⟩ v) (j + 1)
    · simp only [State.setRegsFrom, dif_neg hj]

/-! ## The instructions -/

theorem exec_skp (x : Reg) (s : State) :
    exec (.skp x) s = .next ((s.pressed (s.getV x)).2.skipIf (s.pressed (s.getV x)).1) := rfl

theorem exec_sknp (x : Reg) (s : State) :
    exec (.sknp x) s = .next ((s.pressed (s.getV x)).2.skipIf (!(s.pressed (s.getV x)).1)) := rfl

/-- An instruction does the same wherever the driver stands, and leaves the driver there. -/
theorem exec_inDriver {i : Instr} (h : exec i s = .next t) :
    exec i (s.inDriver p b) = .next (t.inDriver p b) := by
  have hgetV : (s.inDriver p b).getV = s.getV := rfl
  cases i with
  | call nnn =>
    by_cases hsp : s.sp.val = 16
    · rw [exec_call_full nnn hsp] at h
      cases h
      exact exec_call_full nnn hsp
    · have hlt : s.sp.val < 16 := by omega
      rw [exec_call_of_lt nnn hlt] at h
      cases h
      exact exec_call_of_lt nnn (s := s.inDriver p b) hlt
  | ret =>
    by_cases hsp : s.sp.val = 0
    · rw [exec_ret_empty hsp] at h
      cases h
      exact exec_ret_empty hsp
    · have hpos : 0 < s.sp.val := by omega
      rw [exec_ret_of_pos hpos] at h
      cases h
      exact exec_ret_of_pos (s := s.inDriver p b) hpos
  | drw x y n =>
    have hread := s.readBytes_inDriver p b n.val s.i.toNat
    obtain ⟨sprite, hs, rfl⟩ | ⟨hs, rfl⟩ := exec_drw_cases h
    · exact exec_drw_of_some (hread.trans hs)
    · exact exec_of_faultOf_some (if_pos (hread.trans hs))
  | ldBVx x =>
    have hwrite := State.writeBytes_inDriver p b (bcdDigits (s.getV x)) (s := s) (a := s.i.toNat)
    obtain ⟨u, hu, rfl⟩ | ⟨hu, rfl⟩ := exec_ldBVx_cases h
    · rw [hu] at hwrite
      exact exec_ldBVx_of_some hwrite
    · rw [hu] at hwrite
      exact exec_of_faultOf_some (if_pos hwrite)
  | ldMemVx x =>
    have hwrite := State.writeBytes_inDriver p b (s.regsUpTo x) (s := s) (a := s.i.toNat)
    obtain ⟨u, hu, rfl⟩ | ⟨hu, rfl⟩ := exec_ldMemVx_cases h
    · rw [hu] at hwrite
      exact exec_ldMemVx_of_some hwrite
    · rw [hu] at hwrite
      exact exec_of_faultOf_some (if_pos hwrite)
  | ldVxMem x =>
    have hread := s.readBytes_inDriver p b (x.val + 1) s.i.toNat
    obtain ⟨bytes, hs, rfl⟩ | ⟨hs, rfl⟩ := exec_ldVxMem_cases h
    · rw [exec_ldVxMem_of_some (hread.trans hs), State.setRegsFrom_inDriver]
      rfl
    · exact exec_of_faultOf_some (if_pos (hread.trans hs))
  | ldVxK x =>
    obtain ⟨k, rest, hq, rfl⟩ | ⟨hq, rfl⟩ := exec_ldVxK_cases h
    · have hpop : (s.inDriver p b).keyPop = some (k, { s.inDriver p b with queue := rest }) := by
        simp [State.keyPop, State.inDriver, hq]
      simp only [exec, execLdVxK, hpop]
      rfl
    · have hpop : (t.inDriver p b).keyPop = none := by simp [State.keyPop, State.inDriver, hq]
      simp only [exec, execLdVxK, hpop]
      rfl
  | seImm | sneImm | seReg | sneReg =>
    cases h
    exact congrArg _ (s.skipIf_inDriver p b _)
  | skp x =>
    rw [exec_skp] at h ⊢
    cases h
    rw [hgetV, State.pressed_inDriver, State.skipIf_inDriver]
  | sknp x =>
    rw [exec_sknp] at h ⊢
    cases h
    rw [hgetV, State.pressed_inDriver, State.skipIf_inDriver]
  | cls | sys | jp | jpV0 | ldImm | addImm | ldReg | orReg | andReg | xorReg | addReg | subReg | shr | subnReg | shl
  | ldI | rnd | ldVxDT | ldDTVx | ldSTVx | addIVx | ldFVx =>
    cases h
    rfl

/-- Settles O11: the driver's fields are in no frame, and every instruction commutes with changing them. -/
theorem instructionsIgnoreTheDriver : Obligations.InstructionsIgnoreTheDriver := by
  intro i s t p b h
  exact ⟨(exec_sameHost h).phase, (exec_sameHost h).inbox, exec_inDriver p b h⟩

end Sys2Proof.Machine
end

section
/-! The machine's step (40_control.md R62, 60_exceptions.md R120 to R122, 44_keypad_timer.md R112): what a step in a
batch does with the instruction at PC, an illegal word, a wait and the zero word, and that an instruction step always
answers a next state and keeps the host's fields. -/

namespace Sys2Proof.Machine

/-! ## One instruction step -/

section AtPC
variable {s : State} (hs : s.fault = none) {w : Word} (hw : s.fetch = some w)
include hs hw

theorem State.stepInstruction_of_decode {i : Instr} (hd : decodeWord w = .ok i) : s.stepInstruction = exec i s := by
  simp [State.stepInstruction, hs, hw, hd]

theorem State.stepInstruction_of_illegal {e : DecodeError} (hd : decodeWord w = .error e) :
    s.stepInstruction = .next (s.raiseFault .illegalInstruction (some w)) := by
  simp [State.stepInstruction, hs, hw, hd]

end AtPC

/-- The instruction at PC would wait exactly when it is Fx0A and no key event is pending. -/
theorem State.waitsAtPC_of_decode {s : State} {w : Word} {i : Instr} (hw : s.fetch = some w)
    (hd : decodeWord w = .ok i) : s.waitsAtPC = true ↔ (∃ x, i = .ldVxK x) ∧ s.queue = [] := by
  simp only [State.waitsAtPC, hw, hd]
  cases i <;> simp

theorem State.waitsAtPC_of_illegal {s : State} {w : Word} {e : DecodeError} (hw : s.fetch = some w)
    (hd : decodeWord w = .error e) : s.waitsAtPC = false := by
  simp [State.waitsAtPC, hw, hd]

/-- An instruction step that answers a next state ran in a block without a fault: it raised a fault, or it ran the
instruction fetched. -/
theorem State.stepInstruction_next_cases {s t : State} (h : s.stepInstruction = .next t) :
    s.fault = none ∧ ((∃ k o, t = s.raiseFault k o) ∨
      ∃ w i, s.fetch = some w ∧ decodeWord w = .ok i ∧ exec i s = .next t) := by
  obtain ⟨-, hstep⟩ | ⟨hs, -, hstep⟩ | ⟨w, e, hs, -, -, hstep⟩ | ⟨w, i, hs, hw, hd, hstep⟩ := s.stepInstruction_cases
  · rw [hstep] at h
    cases h
  · rw [hstep] at h
    cases h
    exact ⟨hs, .inl ⟨_, _, rfl⟩⟩
  · rw [hstep] at h
    cases h
    exact ⟨hs, .inl ⟨_, _, rfl⟩⟩
  · exact ⟨hs, .inr ⟨w, i, hw, hd, hstep ▸ h⟩⟩

/-- An instruction step of a block without a fault answers a next state. -/
theorem State.stepInstruction_next {s : State} (hs : s.fault = none) : ∃ t, s.stepInstruction = .next t := by
  obtain ⟨hhalt, -⟩ | ⟨-, -, hstep⟩ | ⟨_, _, -, -, -, hstep⟩ | ⟨_, i, -, -, -, hstep⟩ := s.stepInstruction_cases
  · simp [hs] at hhalt
  · exact ⟨_, hstep⟩
  · exact ⟨_, hstep⟩
  · rw [hstep]
    exact exec_next i s

/-- An instruction step keeps the fields of the host and the driver. -/
theorem State.stepInstruction_sameHost {s t : State} (h : s.stepInstruction = .next t) : s.SameHost t := by
  obtain ⟨-, ⟨k, o, rfl⟩ | ⟨w, i, -, -, h⟩⟩ := State.stepInstruction_next_cases h
  · exact ⟨rfl, rfl, rfl, rfl, rfl, rfl, rfl, rfl⟩
  · exact exec_sameHost h

/-- An instruction step does the same wherever the driver stands, and leaves the driver there. -/
theorem State.stepInstruction_inDriver {s t : State} (p : Phase) (b : List HostOp) (h : s.stepInstruction = .next t) :
    (s.inDriver p b).stepInstruction = .next (t.inDriver p b) := by
  have hfetch := s.fetch_inDriver p b
  obtain ⟨-, hstep⟩ | ⟨hs, hw, hstep⟩ | ⟨w, e, hs, hw, hd, hstep⟩ | ⟨w, i, hs, hw, hd, hstep⟩ := s.stepInstruction_cases
  · rw [hstep] at h
    cases h
  · rw [hstep] at h
    cases h
    exact State.stepInstruction_of_fetch_none hs (hfetch.trans hw)
  · rw [hstep] at h
    cases h
    exact State.stepInstruction_of_illegal (s := s.inDriver p b) hs (hfetch.trans hw) hd
  · rw [State.stepInstruction_of_decode (s := s.inDriver p b) hs (hfetch.trans hw) hd]
    exact exec_inDriver p b (hstep ▸ h)

theorem State.waitsAtPC_inDriver (s : State) (p : Phase) (b : List HostOp) :
    (s.inDriver p b).waitsAtPC = s.waitsAtPC := by
  simp only [State.waitsAtPC, State.fetch_inDriver]
  rfl

/-! ## A step in a batch -/

/-- In a batch with a step left and no fault, the machine runs an instruction step. -/
theorem step_of_batch {s : State} {left : Nat} (hp : s.phase = .batch (left + 1)) (hs : s.fault = none) :
    step s = s.batchStep left := by
  simp [step_eq, State.advance, hp, hs]

/-- With the budget spent or a fault standing, the machine ends the tick. -/
theorem step_of_batch_over {s : State} {left : Nat} (hp : s.phase = .batch left) (h : left = 0 ∨ s.fault ≠ none) :
    step s = .next s.endTick := by
  cases left with
  | zero => simp [step_eq, State.advance, hp]
  | succ left =>
    have hs : s.fault.isSome := Option.isSome_iff_ne_none.mpr (h.resolve_left (Nat.succ_ne_zero left))
    simp [step_eq, State.advance, hp, hs]

/-- Around an instruction step the driver counts it, and ends the batch where the instruction waits. -/
theorem State.batchStep_of_next {s t : State} (left : Nat) (h : s.stepInstruction = .next t) :
    s.batchStep left = .next { t with phase := .batch (if s.waitsAtPC then 0 else left) } := by
  simp [State.batchStep, h]

/-- Settles O10: the step in a batch is the instruction step, and that one is `exec` of the decoded word. -/
theorem stepRunsDecodedInstruction : Obligations.StepRunsDecodedInstruction := by
  intro s left w i hp hs hw hd
  have hexec := State.stepInstruction_of_decode hs hw hd
  rw [step_of_batch hp hs]
  refine ⟨fun t h => State.batchStep_of_next left (hexec.trans h), fun f h => ?_, fun r h => ?_,
    State.waitsAtPC_of_decode hw hd⟩
  · simp [State.batchStep, hexec, h]
  · simp [State.batchStep, hexec, h]

/-- Settles O43: the step raises the fault, and an illegal word never waits. -/
theorem illegalWordFaults : Obligations.IllegalWordFaults := by
  intro s left w e hp hs hw hd
  rw [step_of_batch hp hs, State.batchStep_of_next left (State.stepInstruction_of_illegal hs hw hd),
    State.waitsAtPC_of_illegal hw hd]
  rfl

/-- Settles O37: Fx0A pops the queue or changes nothing, and where it waits its step ends the batch. -/
theorem keyWaitResult : Obligations.KeyWaitResult := by
  intro x s
  have hdec := decodeWord_ldVxK x
  have hwait (hq : s.queue = []) : exec (.ldVxK x) s = .next s := by
    simp [exec, execLdVxK, State.keyPop, State.goWait, hq]
  refine ⟨hdec, fun k rest hq => ?_, hwait, fun left hq hp hs hw => ?_⟩
  · refine ⟨({ s with queue := rest } : State).finishReg x (k.setWidth 8), ?_, rfl, fun _ => rfl, fun j hj => ?_,
      State.pcNext_of_pc rfl, ?_⟩
    · simp [exec, execLdVxK, State.keyPop, hq]
    · exact State.getV_finishReg_ne _ _ (Ne.symm (List.ne_of_not_mem_cons hj))
    · rw [State.getV_finishReg_self, BitVec.toNat_setWidth_of_le (by decide)]
  · obtain ⟨hstep, -, -, hwaits⟩ := stepRunsDecodedInstruction s left _ _ hp hs hw hdec
    rw [hstep s (hwait hq), if_pos (hwaits.mpr ⟨⟨x, rfl⟩, hq⟩)]

/-! ## BadAddress under `wrap` (R120) -/

/-- Under `wrap` no access fails, so no instruction raises BadAddress. -/
theorem State.faultOf_wrap {s : State} (hp : s.params.addrPolicy = .wrap) (i : Instr) :
    s.faultOf i ≠ some .badAddress := by
  have hwrite (bytes : List Byte) : s.writeBytes s.i.toNat bytes ≠ none := by
    obtain ⟨u, hu⟩ := State.writeBytes_wrap bytes hp s.i.toNat
    rw [hu]
    nofun
  cases i <;> simp [State.faultOf, hwrite, State.readBytes_wrap s hp]

/-- Settles O44: the fetch answers a word, an illegal word raises IllegalInstruction, and no instruction raises
BadAddress. -/
theorem wrapNeverBadAddress : Obligations.WrapNeverBadAddress := by
  intro s t f hp h hf
  obtain ⟨-, hstep⟩ | ⟨-, hw, -⟩ | ⟨w, e, -, -, -, hstep⟩ | ⟨w, i, hs, -, -, hstep⟩ := s.stepInstruction_cases
  · rw [hstep] at h
    cases h
  · rw [State.fetch_wrap hp] at hw
    cases hw
  · rw [hstep] at h
    cases h
    cases hf
    nofun
  · intro hkind
    exact State.faultOf_wrap hp i (hkind ▸ (exec_raised hs (hstep ▸ h) hf).1)

/-! ## Several steps -/

/-- A run of a machine takes one step and goes on. -/
theorem run_succ_of_step {M : Host.Core} {s t : M.State} (n : Nat) (h : M.step s = .next t) :
    M.run (n + 1) s = M.run n t := by
  rw [Host.Core.run, h]

/-- The first word of the font, which is illegal (R149). -/
theorem fetch_at_zero {s : State} (hp : s.params.addrPolicy = .wrap) (hfont : s.mem.fontIntact) (hpc : s.pc = 0) :
    s.fetch = some 0xF090 := by
  rw [State.fetch_wrap hp, hpc, hfont _ (by decide), hfont _ (by decide)]
  decide

/-- Settles O47: the zero word is SYS 0, and the word at address 0 is illegal. -/
theorem zeroWordRunsIntoTheFont : Obligations.ZeroWordRunsIntoTheFont := by
  intro s left hp hfont hphase hs hw
  have hdec : decodeWord 0 = .ok (.sys 0) := by decide
  obtain ⟨hjump, -, -, hwaits⟩ := stepRunsDecodedInstruction s (left + 1) 0 (.sys 0) hphase hs hw hdec
  have hnowait : ¬s.waitsAtPC = true := fun h => by
    obtain ⟨⟨x, hx⟩, -⟩ := hwaits.mp h
    cases hx
  obtain ⟨u, hu⟩ : ∃ u : State, u = { s with pc := 0, phase := .batch (left + 1) } := ⟨_, rfl⟩
  have hfirst : step s = .next u := by
    rw [hjump _ rfl, if_neg hnowait, hu]
    rfl
  have hfetch : u.fetch = some 0xF090 := fetch_at_zero (by rwa [hu]) (by rwa [hu]) (by rw [hu])
  have hsecond := illegalWordFaults u left 0xF090 (.illegal 0xF090) (by rw [hu]) (by rwa [hu]) hfetch (by decide)
  refine (run_succ_of_step 1 hfirst).trans ((run_succ_of_step 0 hsecond).trans ?_)
  rw [hu]
  rfl

end Sys2Proof.Machine
end

section
/-! The timer unit, the key queue and the tick (60_exceptions.md R127 to R139): the timer update as one formula, the
start and the end of a tick, and the machine's steps as the batch loop of R137. -/

namespace Sys2Proof.Machine

/-! ## The timer update (R127, R128) -/

/-- The whole timer periods from the timestamp to `now`, 0 where `now` is below it. -/
def State.periodsTo (s : State) (now : Nat) : Nat := (now - s.tLast) / s.params.period

/-- A timer update takes the periods that have passed off both timers, down to 0, and moves the timestamp by them. -/
theorem State.timerUpdate_eq_periods (s : State) (now : Nat) :
    s.timerUpdate now = { s with
      dt := BitVec.ofNat 8 (s.dt.toNat - s.periodsTo now)
      st := BitVec.ofNat 8 (s.st.toNat - s.periodsTo now)
      tLast := s.tLast + s.periodsTo now * s.params.period } := by
  have hmin (n k : Nat) : n - min n k = n - k := by omega
  unfold State.timerUpdate
  dsimp only
  split_ifs with hk
  · simp only [hmin]
    rfl
  · have hzero : s.periodsTo now = 0 := Nat.eq_zero_of_not_pos hk
    simp [hzero]

theorem toNat_ofNat_sub (b : Byte) (k : Nat) : (BitVec.ofNat 8 (b.toNat - k)).toNat = b.toNat - k := by
  rw [BitVec.toNat_ofNat]
  exact Nat.mod_eq_of_lt (by omega)

section
variable (s : State) (now : Nat)

theorem State.timerUpdate_dt_toNat : (s.timerUpdate now).dt.toNat = s.dt.toNat - s.periodsTo now := by
  rw [State.timerUpdate_eq_periods]
  exact toNat_ofNat_sub s.dt _

theorem State.timerUpdate_st_toNat : (s.timerUpdate now).st.toNat = s.st.toNat - s.periodsTo now := by
  rw [State.timerUpdate_eq_periods]
  exact toNat_ofNat_sub s.st _

theorem State.timerUpdate_tLast : (s.timerUpdate now).tLast = s.tLast + s.periodsTo now * s.params.period := by
  rw [State.timerUpdate_eq_periods]

/-- The timestamp does not pass the time of the update. -/
theorem State.timerUpdate_tLast_le (h : s.tLast ≤ now) : (s.timerUpdate now).tLast ≤ now := by
  have hmul : s.periodsTo now * s.params.period ≤ now - s.tLast := Nat.div_mul_le_self _ _
  rw [State.timerUpdate_tLast]
  omega

end

/-- The periods left after an update are those to the later time less those taken. -/
theorem State.periodsTo_timerUpdate (s : State) (a b : Nat) :
    (s.timerUpdate a).periodsTo b = s.periodsTo b - s.periodsTo a := by
  rw [State.periodsTo, State.timerUpdate_tLast, State.timerUpdate_params, ← Nat.sub_sub, Nat.mul_comm]
  exact Nat.sub_mul_div ..

/-- An update in between changes nothing in the end. -/
theorem State.timerUpdate_timerUpdate (s : State) {a b : Nat} (h : a ≤ b) :
    (s.timerUpdate a).timerUpdate b = s.timerUpdate b := by
  have hle : s.periodsTo a ≤ s.periodsTo b := Nat.div_le_div_right (Nat.sub_le_sub_right h _)
  have hsub (n : Nat) : n - s.periodsTo a - (s.periodsTo b - s.periodsTo a) = n - s.periodsTo b := by omega
  have hmul : s.tLast + s.periodsTo a * s.params.period + (s.periodsTo b - s.periodsTo a) * s.params.period =
      s.tLast + s.periodsTo b * s.params.period := by
    rw [Nat.add_assoc, ← Nat.add_mul, Nat.add_sub_of_le hle]
  rw [State.timerUpdate_eq_periods _ b, State.timerUpdate_dt_toNat, State.timerUpdate_st_toNat,
    State.timerUpdate_tLast, State.periodsTo_timerUpdate, State.timerUpdate_params, hsub, hsub, hmul,
    State.timerUpdate_eq_periods s a, State.timerUpdate_eq_periods s b]

/-- The end of a tick updates the timers, presents and frees the driver. -/
theorem State.endTick_eq (s : State) :
    s.endTick = { s.timerUpdate s.now with cur := s.pend, phase := .idle } := by
  rw [← s.timerUpdate_pend s.now]
  rfl

/-- Settles O48: the update by its formula, and the step that ends a tick. -/
theorem timerUpdateResult : Obligations.TimerUpdateResult := by
  intro s now k hk
  have hperiods : s.periodsTo now = k := hk.symm
  refine ⟨_, rfl, s.timerUpdate_eq now, ?_, ?_, ?_, fun left hp h hnow => ?_⟩
  · rw [State.timerUpdate_dt_toNat, hperiods]
    omega
  · rw [State.timerUpdate_st_toNat, hperiods]
    omega
  · rw [State.timerUpdate_tLast, hperiods]
    rfl
  · rw [step_of_batch_over hp h, State.endTick_eq, hnow]

/-- Settles O49: the decrease is the difference of the periods to the two times. -/
theorem timerUpdatesCompose : Obligations.TimerUpdatesCompose := by
  intro s a b _ hab _
  have hcompose := s.timerUpdate_timerUpdate hab
  have hperiods : (s.timerUpdate a).periodsTo b =
      (b - s.tLast) / (s.params.clockHz / 60) - (a - s.tLast) / (s.params.clockHz / 60) :=
    s.periodsTo_timerUpdate a b
  rw [← hperiods, ← hcompose]
  refine ⟨by rw [hcompose], ?_, ?_⟩
  · rw [State.timerUpdate_dt_toNat _ b]
    omega
  · rw [State.timerUpdate_st_toNat _ b]
    omega

/-! ## The key queue (R130 to R132) -/

/-- Settles O51: push, pop and drain by the cases of the queue. -/
theorem keyQueueLaws : Obligations.KeyQueueLaws := by
  intro s k
  refine ⟨fun hlen => ?_, fun old rest hq hlen => ?_, fun old rest hq => ?_, fun hq => ⟨?_, ?_⟩, rfl⟩
  · rw [State.keyPush, if_neg hlen]
  · rw [State.keyPush, if_pos hlen, hq]
    rfl
  · simp [State.keyPop, hq]
  · simp [State.keyPop, hq]
  · have hpushed : (s.keyPush k).queue = [k] := by simp [hq]
    simp only [State.keyPop, hpushed]
    rw [← hq]
    rfl

/-- Pushes write the queue alone, and what they leave in it depends on the queue and its capacity alone. -/
theorem foldl_keyPush_eq (keys : List Key) : ∀ {s s' : State}, s'.queue = s.queue → s'.params = s.params →
    keys.foldl State.keyPush s' = { s' with queue := (keys.foldl State.keyPush s).queue } := by
  induction keys with
  | nil =>
    intro s s' hq _
    rw [List.foldl_nil, List.foldl_nil, ← hq]
  | cons k keys ih =>
    intro s s' hq hp
    have hpush : (s'.keyPush k).queue = (s.keyPush k).queue := by
      rw [State.keyPush_queue, State.keyPush_queue, hq, hp]
    rw [List.foldl_cons, List.foldl_cons, ih hpush hp]
    rfl

/-- Pushes keep the queue within its capacity. -/
theorem foldl_keyPush_length (keys : List Key) : ∀ {s : State}, 1 ≤ s.params.keyqCap →
    s.queue.length ≤ s.params.keyqCap → (keys.foldl State.keyPush s).queue.length ≤ s.params.keyqCap := by
  induction keys with
  | nil => exact fun _ h => h
  | cons k keys ih =>
    intro s hcap hlen
    refine ih (s := s.keyPush k) hcap ?_
    rw [State.keyPush_queue, State.keyPush_params, List.length_append]
    split_ifs with hfull
    · rw [List.length_drop, List.length_singleton]
      omega
    · rw [List.length_singleton]
      omega

/-! ## The start of a tick (R133, R137) -/

theorem State.beginTick_eq (s : State) (t : Nat) (keys : List Key) (kd : BitVec 16) :
    s.beginTick t keys kd = { s with
      now := t
      queue := (keys.foldl State.keyPush s).queue
      keyDown := if s.params.keyMode = .level then kd else s.keyDown
      phase := .batch s.params.ipf } := by
  rw [State.beginTick, foldl_keyPush_eq keys (s := s) (s' := { s with now := t }) rfl rfl]
  cases hmode : s.params.keyMode <;> simp

/-- A host operation at a time not below the last one has its own outcome: here a tick's start. -/
theorem State.hostStep_tick {s : State} {t : Nat} (h : s.now ≤ t) (keys : List Key) (kd : BitVec 16) :
    s.hostStep (.tick t keys kd) = .next (s.beginTick t keys kd) :=
  State.atTime_of_le h _

/-- Settles O52: the step takes the tick and opens its batch. -/
theorem tickStartResult : Obligations.TickStartResult := by
  intro s t keys kd rest hp hi hle
  have htick := State.hostStep_tick (s := { s with inbox := rest }) hle keys kd
  have hqueue : (keys.foldl State.keyPush { s with inbox := rest }).queue = (keys.foldl State.keyPush s).queue :=
    (congrArg State.queue (foldl_keyPush_eq keys (s := s) (s' := { s with inbox := rest }) rfl rfl) :)
  rw [step_of_inbox hp hi, htick, State.beginTick_eq, hqueue]

/-! ## The batch loop (R137) -/

/-- `s` with the driver in a batch with `n` steps left. -/
def State.inBatch (s : State) (n : Nat) : State := s.inDriver (.batch n) s.inbox

/-- The end of a tick does not depend on how many steps were left. -/
theorem State.endTick_inBatch (s : State) (n : Nat) : (s.inBatch n).endTick = s.endTick := by
  rw [State.endTick, State.endTick, State.timerUpdate_eq_periods, State.timerUpdate_eq_periods s]
  rfl

/-- In a batch that is over, the machine ends the tick. -/
theorem step_inBatch_over {s : State} {n : Nat} (h : n = 0 ∨ s.fault ≠ none) :
    step (s.inBatch n) = .next s.endTick := by
  rw [step_of_batch_over (s := s.inBatch n) rfl h, State.endTick_inBatch]

/-- In a batch with a step left, the machine runs an instruction step and counts it. -/
theorem step_inBatch {s t : State} (n : Nat) (hs : s.fault = none) (h : s.stepInstruction = .next t) :
    step (s.inBatch (n + 1)) = .next (t.inBatch (if s.waitsAtPC then 0 else n)) := by
  have hinbox := (State.stepInstruction_sameHost h).inbox
  have hstep := State.stepInstruction_inDriver (.batch (n + 1)) s.inbox h
  have hwaits := s.waitsAtPC_inDriver (.batch (n + 1)) s.inbox
  rw [State.inBatch, step_of_batch (s := s.inDriver (.batch (n + 1)) s.inbox) rfl hs,
    State.batchStep_of_next n hstep, hwaits, State.inBatch, hinbox]
  rfl

/-- The batch loop always answers a state, and keeps the time. -/
theorem State.runBatch_next (n : Nat) : ∀ s : State, ∃ u, s.runBatch n = .next u ∧ u.now = s.now := by
  induction n with
  | zero => exact fun s => ⟨s, rfl, rfl⟩
  | succ n ih =>
    intro s
    cases hs : s.fault with
    | some f => exact ⟨s, by simp [State.runBatch, hs], rfl⟩
    | none =>
      obtain ⟨s', hstep⟩ := State.stepInstruction_next hs
      have hnow := (State.stepInstruction_sameHost hstep).now
      cases hwait : s.waitsAtPC with
      | true => exact ⟨s', by simp [State.runBatch, hs, hstep, hwait], hnow⟩
      | false =>
        obtain ⟨u, hu, hunow⟩ := ih s'
        exact ⟨u, by simpa [State.runBatch, hs, hstep, hwait] using hu, hunow.trans hnow⟩

/-- In a halted block the batch loop runs nothing. -/
theorem State.runBatch_of_fault {s : State} (h : s.fault ≠ none) (n : Nat) : s.runBatch n = .next s := by
  cases n with
  | zero => rfl
  | succ n => simp [State.runBatch, Option.isSome_iff_ne_none.mpr h]

/-- From a batch with `n` steps left, the machine's steps run the batch loop and end the tick. -/
theorem run_of_runBatch (n : Nat) : ∀ {s u : State}, s.runBatch n = .next u →
    ∃ m ≤ n + 1, Sys2Proof.core.run m (s.inBatch n) = .next u.endTick := by
  induction n with
  | zero =>
    intro s u h
    cases h
    exact ⟨1, le_rfl, run_succ_of_step 0 (step_inBatch_over (.inl rfl))⟩
  | succ n ih =>
    intro s u h
    by_cases hs : s.fault = none
    · obtain ⟨t, hstep⟩ := State.stepInstruction_next hs
      have hmachine := step_inBatch n hs hstep
      cases hwait : s.waitsAtPC with
      | true =>
        obtain rfl : t = u := by simpa [State.runBatch, hs, hstep, hwait] using h
        rw [hwait, if_pos rfl] at hmachine
        exact ⟨2, by omega, (run_succ_of_step 1 hmachine).trans (run_succ_of_step 0 (step_inBatch_over (.inl rfl)))⟩
      | false =>
        obtain ⟨m, hm, hrun⟩ := ih (s := t) (u := u) (by simpa [State.runBatch, hs, hstep, hwait] using h)
        rw [hwait, if_neg Bool.false_ne_true] at hmachine
        exact ⟨m + 1, by omega, (run_succ_of_step m hmachine).trans hrun⟩
    · rw [State.runBatch_of_fault hs] at h
      cases h
      have hlast : step (s.inBatch (n + 1)) = .next s.endTick := step_inBatch_over (.inr hs)
      exact ⟨1, by omega, run_succ_of_step 0 hlast⟩

/-- A run stops at a refusal. -/
theorem run_of_refused {M : Host.Core} {s : M.State} {r : M.Refusal} (h : M.step s = .refused r) :
    M.run 1 s = .refused r := by
  rw [Host.Core.run, h]

/-- A tick at a time not below the last one is its start, the batch loop and its end. -/
theorem State.tick_of_runBatch {s u : State} {t : Nat} {keys : List Key} {kd : BitVec 16} (hle : s.now ≤ t)
    (h : (s.beginTick t keys kd).runBatch s.params.ipf = .next u) : s.tick t keys kd = .next u.endTick := by
  rw [State.tick, State.atTime_of_le hle, h]

/-- Settles O54: the loop answers a state in which only the tick's end is left to do. -/
theorem tickCompletes : Obligations.TickCompletes := by
  intro s t keys kd
  refine ⟨fun hle => ?_, fun hlt => State.atTime_of_lt hlt _⟩
  obtain ⟨u, hu, hnow⟩ := State.runBatch_next s.params.ipf (s.beginTick t keys kd)
  have hbegin := s.beginTick_eq t keys kd
  refine ⟨_, State.tick_of_runBatch hle hu, rfl, ?_, ?_, fun hfault => ?_⟩
  · rw [State.endTick_eq, State.timerUpdate_pend]
  · rw [State.endTick_eq, State.timerUpdate_now, hnow, hbegin]
  · have hfault' : (s.beginTick t keys kd).fault ≠ none := by rwa [hbegin]
    rw [State.runBatch_of_fault hfault'] at hu
    cases hu
    rfl

/-- Settles O53: one step starts the tick, and the batch loop and the end follow; a tick back in time is refused. -/
theorem stepsRefineTheTick : Obligations.StepsRefineTheTick := by
  intro s t keys kd rest hp hi
  have hfirst := step_of_inbox hp hi
  generalize hs' : ({ s with inbox := rest } : State) = s' at hfirst ⊢
  have hnow : s'.now = s.now := hs' ▸ rfl
  have hparams : s'.params = s.params := hs' ▸ rfl
  rw [← hparams]
  rcases Nat.lt_or_ge t s'.now with hlt | hle
  · refine ⟨1, by omega, ?_⟩
    have hrefused : Sys2Proof.core.step s = .refused .timeBackwards := hfirst.trans (State.atTime_of_lt hlt _)
    have htick : s'.tick t keys kd = .refused .timeBackwards := State.atTime_of_lt hlt _
    rw [htick]
    exact run_of_refused hrefused
  · rw [State.hostStep_tick hle] at hfirst
    obtain ⟨u, hu, -⟩ := State.runBatch_next s'.params.ipf (s'.beginTick t keys kd)
    obtain ⟨m, hm, hrun⟩ := run_of_runBatch s'.params.ipf hu
    have hbatch : (s'.beginTick t keys kd).inBatch s'.params.ipf = s'.beginTick t keys kd := by
      rw [State.beginTick_eq]
      rfl
    rw [hbatch] at hrun
    have htick := State.tick_of_runBatch hle hu
    exact ⟨m + 1, by omega, (run_succ_of_step m hfirst).trans (hrun.trans htick.symm)⟩

end Sys2Proof.Machine
end

section
/-! Load, reset and power-on (70_reset_and_hazards.md R144 to R147), and what every step of the machine keeps: a
standing fault, the timers, the parameters and the time. -/

namespace Sys2Proof.Machine

/-! ## Load (R144, R145) -/

/-- A load that answers a next state fitted and was written and kept, or did not fit and set ProgramTooLarge. -/
theorem State.hostLoad_cases {s u : State} {image : List Byte} {offset t : Nat}
    (h : s.hostLoad image offset t = .next u) :
    (80 ≤ offset ∧ offset ≤ 4096 ∧ image.length ≤ 4096 - offset ∧
      u = { s with now := t, mem := s.mem.writeAll offset image, rom := image, romOffset := offset }) ∨
    u = ({ s with now := t } : State).raiseFault .programTooLarge none := by
  unfold State.hostLoad at h
  split_ifs at h with hoffset hfit
  · cases h
    exact .inr rfl
  · obtain ⟨hlow, hhigh⟩ := not_or.mp hoffset
    cases h
    exact .inl ⟨Nat.not_lt.mp hlow, Nat.not_lt.mp hhigh, Nat.not_lt.mp hfit, rfl⟩

/-- Settles O55: a load is refused, written or set aside by its offset and its length. -/
theorem loadResult : Obligations.LoadResult := by
  intro s image offset t rest hwf hp hi hle
  have hstep : step s = ({ s with inbox := rest } : State).hostLoad image offset t :=
    (step_of_inbox hp hi).trans (State.atTime_of_le hle _)
  rw [hstep]
  refine ⟨fun hbad => if_pos hbad, fun hlow hhigh hfit => ?_, fun hlow hhigh hlong => ?_⟩
  · have hgood : ¬(offset < fontSize ∨ memSize < offset) := not_or.mpr ⟨Nat.not_lt.mpr hlow, Nat.not_lt.mpr hhigh⟩
    have hread := Mem.read_writeAll image (a := offset) hwf.1
    refine ⟨_, (if_neg hgood).trans (if_neg (Nat.not_lt.mpr hfit)), rfl, ?_, fun j hj => ?_, fun a ha => ?_⟩
    · exact Mem.writeAll_wf image hwf (by simp only [memSize]; omega)
    · exact (hread _).trans (by simp [hj])
    · exact (hread a).trans (dif_neg (by omega))
  · have hgood : ¬(offset < fontSize ∨ memSize < offset) := not_or.mpr ⟨Nat.not_lt.mpr hlow, Nat.not_lt.mpr hhigh⟩
    exact (if_neg hgood).trans (if_pos hlong)

/-! ## Reset (R147) -/

/-- The memory that a reset writes the image into: the font, and the other bytes as RESET_RAM says. -/
def State.clearedMem (s : State) : Mem :=
  match s.params.resetRam with
  | .preserve => s.mem.restoreFont
  | .zero => s.mem.restoreFont.clearRam

theorem State.resetMem_eq (s : State) : s.resetMem = s.clearedMem.writeAll s.romOffset s.rom := rfl

theorem State.clearedMem_wf {s : State} (h : s.mem.wf) : s.clearedMem.wf := by
  unfold State.clearedMem
  split
  · exact Mem.restoreFont_wf h
  · exact Mem.clearRam_wf (Mem.restoreFont_wf h)

/-- In the font region the font; above it the old byte, or 0. -/
theorem State.read_clearedMem (s : State) (a : Nat) :
    Mem.read s.clearedMem a =
      if a < 80 then Mem.unlisted a else if s.params.resetRam = .preserve then Mem.read s.mem a else 0 := by
  have hpreserve := Mem.read_restoreFont s.mem a
  have hzero := Mem.read_clearRam s.mem.restoreFont a
  unfold State.clearedMem
  by_cases ha : a < 80
  · rw [if_pos ha]
    rw [if_neg (show ¬fontSize ≤ a from Nat.not_le.mpr ha)] at hpreserve
    rw [if_pos (show a < fontSize from ha)] at hzero
    cases s.params.resetRam
    · exact hpreserve
    · exact hzero.trans hpreserve
  · have hram : fontSize ≤ a := Nat.not_lt.mp ha
    rw [if_neg ha]
    rw [if_pos hram] at hpreserve
    rw [if_neg (Nat.not_lt.mpr hram)] at hzero
    cases s.params.resetRam
    · exact hpreserve
    · exact hzero.trans (Mem.unlisted_ram hram)

theorem State.resetMem_wf {s : State} (h : s.mem.wf) (hrom : s.romFits) : s.resetMem.wf :=
  Mem.writeAll_wf s.rom (State.clearedMem_wf h) hrom.2

/-- Outside the image a reset leaves what it writes the image into. -/
theorem State.read_resetMem_outside {s : State} (h : s.mem.wf) {a : Nat}
    (ha : a < s.romOffset ∨ s.romOffset + s.rom.length ≤ a) : Mem.read s.resetMem a = Mem.read s.clearedMem a :=
  (Mem.read_writeAll s.rom (State.clearedMem_wf h).1 a).trans (dif_neg (by omega))

/-- A reset restores the font, which lies below the image. -/
theorem State.resetMem_font {s : State} (h : s.mem.wf) (hrom : s.romFits) : s.resetMem.fontIntact := by
  intro a ha
  rw [State.read_resetMem_outside h (.inl (Nat.lt_of_lt_of_le ha hrom.1)), State.read_clearedMem]
  exact if_pos ha

/-- Settles O57: the fields as the reset sets them, and each byte as the image, the font or RESET_RAM has it. -/
theorem resetResult : Obligations.ResetResult := by
  intro s t rest hwf hrom hp hi hle
  have hstep : step s = .next (({ s with inbox := rest } : State).hostReset t) :=
    (step_of_inbox hp hi).trans (State.atTime_of_le hle _)
  have hmem : (({ s with inbox := rest } : State).hostReset t).mem = s.resetMem := rfl
  refine ⟨_, hstep, fun x => by simp [State.hostReset, State.getV_eq], rfl, rfl, rfl,
    fun j hj => by simp [State.hostReset], rfl, rfl, rfl, rfl, rfl,
    fun c r => ⟨Plane.pixel_blank c r, Plane.pixel_blank c r⟩, rfl, rfl, rfl, rfl, hp, rfl, fun j hj => ?_,
    fun a ha => ?_, fun a ha hout => ?_⟩
  · rw [hmem, State.resetMem_eq, Mem.read_writeAll s.rom (State.clearedMem_wf hwf).1]
    simp [hj]
  · rw [hmem]
    exact State.resetMem_font hwf hrom a ha
  · rw [hmem, State.read_resetMem_outside hwf hout, State.read_clearedMem, if_neg (Nat.not_lt.mpr ha)]

/-! ## Power-on (R31, R146) -/

theorem unlisted_eq_glyph (d : Fin 16) (j : Nat) (h : j < (glyphRows d).length) :
    Mem.unlisted (5 * d.val + j) = (glyphRows d)[j] := by
  simp [← unlisted_glyph, Nat.mul_comm]

/-- Settles O56: the fields as power-on sets them, and the empty memory list reads as the font and 0. -/
theorem powerOnState : Obligations.PowerOnState := fun p t =>
  ⟨fun x => by simp [State.powerOn, State.getV_eq], rfl, rfl, rfl, fun j hj => by simp [State.powerOn], rfl, rfl, rfl,
    rfl, rfl, fun c r => ⟨Plane.pixel_blank c r, Plane.pixel_blank c r⟩, rfl, rfl, rfl, unlisted_eq_glyph,
    fun _ ha => Mem.unlisted_ram ha⟩

/-! ## Every step of the machine -/

/-- Settles O46: a halted block takes no instruction step, a tick leaves the fault and the registers, a load leaves a
fault, and only a reset clears it. -/
theorem haltedUntilReset : Obligations.HaltedUntilReset := by
  intro s t hfault h
  obtain ⟨left, -, -, hstep⟩ | ⟨left, -, hs, -⟩ | ⟨-, -, hstep⟩ | ⟨op, rest, hp, hi, hstep⟩ := step_cases s
  · rw [hstep] at h
    cases h
    right
    rw [State.endTick_eq, State.timerUpdate_eq_periods]
    exact ⟨hfault, rfl, rfl, rfl, rfl, rfl, rfl, rfl⟩
  · exact absurd hs hfault
  · rw [hstep] at h
    cases h
    exact .inr ⟨hfault, rfl, rfl, rfl, rfl, rfl, rfl, rfl⟩
  · rw [hstep] at h
    obtain ⟨-, ⟨image, offset, now, -, hload⟩ | ⟨now, rfl, rfl⟩ | ⟨now, keys, kd, -, rfl⟩⟩ := State.hostStep_next h
    · obtain ⟨-, -, -, rfl⟩ | rfl := State.hostLoad_cases hload
      · exact .inr ⟨hfault, rfl, rfl, rfl, rfl, rfl, rfl, rfl⟩
      · exact .inr ⟨nofun, rfl, rfl, rfl, rfl, rfl, rfl, rfl⟩
    · exact .inl ⟨now, rest, hp, hi, rfl, rfl⟩
    · rw [State.beginTick_eq]
      exact .inr ⟨hfault, rfl, rfl, rfl, rfl, rfl, rfl, rfl⟩

/-- Settles O50: a tick's end and a reset take from the timers, and in a batch only Fx15 and Fx18 write them. -/
theorem timersNeverIncrease : Obligations.TimersNeverIncrease := by
  intro s t h
  have hle (hdt : t.dt.toNat ≤ s.dt.toNat) (hst : t.st.toNat ≤ s.st.toNat) :
      (s.dt.toNat < t.dt.toNat → ∃ w x, s.fetch = some w ∧ decodeWord w = .ok (.ldDTVx x)) ∧
      (s.st.toNat < t.st.toNat → ∃ w x, s.fetch = some w ∧ decodeWord w = .ok (.ldSTVx x)) :=
    ⟨fun hlt => absurd hdt (Nat.not_le.mpr hlt), fun hlt => absurd hst (Nat.not_le.mpr hlt)⟩
  obtain ⟨left, -, -, hstep⟩ | ⟨left, -, -, hstep⟩ | ⟨-, -, hstep⟩ | ⟨op, rest, -, -, hstep⟩ := step_cases s
  · rw [hstep] at h
    cases h
    refine hle ?_ ?_
    · rw [State.endTick_eq, State.timerUpdate_dt_toNat]
      exact Nat.sub_le _ _
    · rw [State.endTick_eq, State.timerUpdate_st_toNat]
      exact Nat.sub_le _ _
  · obtain ⟨u, hu, rfl⟩ := State.batchStep_next (hstep ▸ h)
    obtain ⟨-, ⟨k, o, rfl⟩ | ⟨w, i, hw, hd, hexec⟩⟩ := State.stepInstruction_next_cases hu
    · exact hle le_rfl le_rfl
    · obtain ⟨hdt, hst, -⟩ := timerWriters i s u hexec
      refine ⟨fun hlt => ?_, fun hlt => ?_⟩
      · obtain ⟨x, rfl⟩ := hdt fun heq => Nat.lt_irrefl _ (heq ▸ hlt)
        exact ⟨w, x, hw, hd⟩
      · obtain ⟨x, rfl⟩ := hst fun heq => Nat.lt_irrefl _ (heq ▸ hlt)
        exact ⟨w, x, hw, hd⟩
  · rw [hstep] at h
    cases h
    exact hle le_rfl le_rfl
  · rw [hstep] at h
    obtain ⟨-, ⟨image, offset, now, -, hload⟩ | ⟨now, -, rfl⟩ | ⟨now, keys, kd, -, rfl⟩⟩ := State.hostStep_next h
    · obtain ⟨-, -, -, rfl⟩ | rfl := State.hostLoad_cases hload <;> exact hle le_rfl le_rfl
    · exact hle (Nat.zero_le _) (Nat.zero_le _)
    · have hbegin := State.beginTick_eq { s with inbox := rest } now keys kd
      exact hle (by rw [hbegin]) (by rw [hbegin])

/-- A step keeps the parameters, and the time does not go back. -/
theorem step_keeps {s t : State} (h : step s = .next t) : t.params = s.params ∧ s.now ≤ t.now := by
  obtain ⟨left, -, -, hstep⟩ | ⟨left, -, -, hstep⟩ | ⟨-, -, hstep⟩ | ⟨op, rest, -, -, hstep⟩ := step_cases s
  · rw [hstep] at h
    cases h
    rw [State.endTick_eq]
    exact ⟨s.timerUpdate_params _, (s.timerUpdate_now _).ge⟩
  · obtain ⟨u, hu, rfl⟩ := State.batchStep_next (hstep ▸ h)
    have hhost := State.stepInstruction_sameHost hu
    exact ⟨hhost.params, hhost.now.ge⟩
  · rw [hstep] at h
    cases h
    exact ⟨rfl, le_rfl⟩
  · rw [hstep] at h
    obtain ⟨hle, ⟨image, offset, now, rfl, hload⟩ | ⟨now, rfl, rfl⟩ | ⟨now, keys, kd, rfl, rfl⟩⟩ :=
      State.hostStep_next h
    · obtain ⟨-, -, -, rfl⟩ | rfl := State.hostLoad_cases hload <;> exact ⟨rfl, hle⟩
    · exact ⟨rfl, hle⟩
    · rw [State.beginTick_eq]
      exact ⟨rfl, hle⟩

/-- A host operation never stops the machine with a fault, and is refused for its time or, a load, for its offset. -/
theorem State.hostStep_stops (s : State) (op : HostOp) :
    (∃ t, s.hostStep op = .next t) ∨ (op.time < s.now ∧ s.hostStep op = .refused .timeBackwards) ∨
    (∃ image offset t, op = .load image offset t ∧ (offset < 80 ∨ 4096 < offset) ∧
      s.hostStep op = .refused .loadOffset) := by
  rcases Nat.lt_or_ge op.time s.now with hlt | hle
  · exact .inr (.inl ⟨hlt, State.atTime_of_lt hlt _⟩)
  · have hop := State.atTime_of_le (s := s) hle
    cases op with
    | load image offset t =>
      by_cases hbad : offset < fontSize ∨ memSize < offset
      · exact .inr (.inr ⟨image, offset, t, rfl, hbad, (hop _).trans (if_pos hbad)⟩)
      · refine .inl ?_
        by_cases hlong : memSize - offset < image.length
        · exact ⟨_, (hop _).trans ((if_neg hbad).trans (if_pos hlong))⟩
        · exact ⟨_, (hop _).trans ((if_neg hbad).trans (if_neg hlong))⟩
    | reset t => exact .inl ⟨_, hop _⟩
    | tick t keys kd => exact .inl ⟨_, hop _⟩

/-- Everything that a step which answers no next state can be: a host operation refused. -/
theorem step_stops (s : State) :
    (∃ t, step s = .next t) ∨ ∃ op rest, s.phase = .idle ∧ s.inbox = op :: rest ∧
      ((op.time < s.now ∧ step s = .refused .timeBackwards) ∨
       ∃ image offset t, op = .load image offset t ∧ (offset < 80 ∨ 4096 < offset) ∧
        step s = .refused .loadOffset) := by
  obtain ⟨left, -, -, hstep⟩ | ⟨left, -, hs, hstep⟩ | ⟨-, -, hstep⟩ | ⟨op, rest, hp, hi, hstep⟩ := step_cases s
  · exact .inl ⟨_, hstep⟩
  · obtain ⟨t, ht⟩ := State.stepInstruction_next hs
    exact .inl ⟨_, hstep.trans (State.batchStep_of_next left ht)⟩
  · exact .inl ⟨_, hstep⟩
  · rw [hstep]
    exact (State.hostStep_stops { s with inbox := rest } op).imp_right fun h => ⟨op, rest, hp, hi, h⟩

/-- Settles O60: every step that answers no next state is a refusal of its two kinds. -/
theorem stepsNeverStop : Obligations.StepsNeverStop := by
  intro s
  refine ⟨fun t => step_keeps, fun f hf => ?_, fun op rest hp hi hlt => ?_, fun r hr => ?_⟩
  · obtain ⟨t, h⟩ | ⟨_, _, -, -, ⟨-, h⟩ | ⟨_, _, _, -, -, h⟩⟩ := step_stops s
    all_goals
      rw [h] at hf
      cases hf
  · exact (step_of_inbox hp hi).trans (State.atTime_of_lt hlt _)
  · obtain ⟨t, h⟩ | ⟨op, rest, hp, hi, ⟨hlt, h⟩ | ⟨image, offset, t, hop, hbad, h⟩⟩ := step_stops s
    all_goals
      rw [h] at hr
      cases hr
    · exact ⟨op, rest, hp, hi, .inl ⟨rfl, hlt⟩⟩
    · exact ⟨op, rest, hp, hi, .inr ⟨rfl, image, offset, t, hop, hbad⟩⟩

end Sys2Proof.Machine
end

section
/-! The invariant (Sys2Proof/Safety.lean): it holds at power-on, and every step of the machine keeps it: an instruction
step, the end of a tick, and each host operation. -/

namespace Sys2Proof.Machine

/-! ## Power-on -/

theorem State.powerOn_inv {p : Params} (hp : p.wf) (t : Nat) : (State.powerOn p t).Inv where
  params := hp
  memory := Mem.reset_wf
  font := fun _ _ => rfl
  queue := Nat.zero_le _
  keyDown := fun _ => rfl
  rom := show fontSize ≤ 0x200 ∧ 0x200 + 0 ≤ memSize by decide
  clock := le_rfl
  phase := beq_self_eq_true Plane.blank

/-- The hardware's parameters are in range whatever its open ones are (R7). -/
theorem Config.hardware_wf : Config.hardware.wf := by
  refine ⟨?_, ?_, ?_, ?_⟩ <;> simp only [Config.hardware] <;> omega

/-- Settles O59: power-on meets the invariant with any parameters in range, the hardware's among them. -/
theorem resetHasInv : Obligations.ResetHasInv :=
  ⟨State.powerOn_inv Config.hardware_wf 0, fun _ t hp => State.powerOn_inv hp t⟩

/-! ## An instruction -/

/-- No instruction lengthens the key queue (R23). -/
theorem exec_queue_length_le {i : Instr} {s t : State} (h : exec i s = .next t) :
    t.queue.length ≤ s.queue.length := by
  have hpressed (v : Byte) (c : Bool) : ((s.pressed v).2.skipIf c).queue.length ≤ s.queue.length := by
    rw [State.pressed_state, State.skipIf_eq]
    dsimp only
    split_ifs <;> simp
  cases i with
  | skp x =>
    rw [exec_skp] at h
    cases h
    exact hpressed _ _
  | sknp x =>
    rw [exec_sknp] at h
    cases h
    exact hpressed _ _
  | ldVxK x =>
    obtain ⟨k, rest, hq, rfl⟩ | ⟨-, rfl⟩ := exec_ldVxK_cases h
    · simp [hq]
    · exact le_rfl
  | _ => exact (congrArg (List.length ∘ State.queue) (exec_frame h) :).le

/-- The timestamp moves to the time of the operation or stays (R22). -/
theorem exec_tLast_le {i : Instr} {s t : State} (h : exec i s = .next t) (hclock : s.tLast ≤ s.now) :
    t.tLast ≤ s.now := by
  cases i with
  | ldDTVx | ldSTVx =>
    cases h
    exact le_rfl
  | _ => exact (congrArg State.tLast (exec_frame h) :).le.trans hclock

/-- An instruction keeps memory in canonical form. -/
theorem exec_mem_wf {i : Instr} {s t : State} (h : exec i s = .next t) (hwf : s.mem.wf) : t.mem.wf := by
  obtain hmem | ⟨u, bytes, hu, hmem, -⟩ := exec_mem_cases h
  · rwa [hmem]
  · rw [hmem]
    exact State.writeBytes_wf bytes hwf hu

/-- In a batch the invariant's phase is a bound on the budget. -/
theorem State.phaseOk_batch {s : State} {n : Nat} (hp : s.phase = .batch n) :
    s.phaseOk = true ↔ n ≤ s.params.ipf := by
  simp [State.phaseOk, hp]

/-- A block with raised fault meets the invariant if it did before. -/
theorem State.Inv.raiseFault {s : State} (hs : s.Inv) (k : FaultKind) (o : Option Word) : (s.raiseFault k o).Inv :=
  { hs with }

/-- An instruction run in a batch keeps the invariant. -/
theorem State.Inv.exec {i : Instr} {s t : State} {n : Nat} (hs : s.Inv) (hp : s.phase = .batch n)
    (h : exec i s = .next t) : t.Inv := by
  have hhost := exec_sameHost h
  have hleft : n ≤ s.params.ipf := (State.phaseOk_batch hp).mp hs.phase
  exact {
    params := hhost.params ▸ hs.params
    memory := exec_mem_wf h hs.memory
    font := fun a ha => (noInstructionChangesTheFont i s t h a ha).trans (hs.font a ha)
    queue := hhost.params ▸ (exec_queue_length_le h).trans hs.queue
    keyDown := by
      rw [State.keyDownOk, hhost.params, hhost.keyDown]
      exact hs.keyDown
    rom := by
      rw [State.romFits, hhost.rom, hhost.romOffset]
      exact hs.rom
    clock := hhost.now ▸ exec_tLast_le h hs.clock
    phase := (State.phaseOk_batch (hhost.phase.trans hp)).mpr (hhost.params ▸ hleft) }

/-- A batch may have fewer steps left. -/
theorem State.Inv.inBatch {s : State} {n m : Nat} (hs : s.Inv) (hp : s.phase = .batch n) (hm : m ≤ n) :
    ({ s with phase := .batch m } : State).Inv :=
  { hs with phase := decide_eq_true (hm.trans ((State.phaseOk_batch hp).mp hs.phase)) }

/-- An instruction step in a batch keeps the invariant, with the step counted or the batch ended. -/
theorem State.Inv.batchStep {s t : State} {left : Nat} (hs : s.Inv) (hp : s.phase = .batch (left + 1))
    (h : s.batchStep left = .next t) : t.Inv := by
  obtain ⟨u, hu, rfl⟩ := State.batchStep_next h
  have hleft : (if s.waitsAtPC then 0 else left) ≤ left + 1 := by split_ifs <;> omega
  obtain ⟨-, ⟨k, o, rfl⟩ | ⟨w, i, -, -, hexec⟩⟩ := State.stepInstruction_next_cases hu
  · exact (hs.raiseFault k o).inBatch hp hleft
  · exact (hs.exec hp hexec).inBatch ((exec_sameHost hexec).phase.trans hp) hleft

/-! ## The driver and the host -/

/-- The end of a tick keeps the invariant: the timestamp does not pass the tick's time, and the planes agree (R138). -/
theorem State.Inv.endTick {s : State} (hs : s.Inv) : s.endTick.Inv := by
  have hclock := s.timerUpdate_tLast_le s.now hs.clock
  rw [State.timerUpdate_eq_periods] at hclock
  rw [State.endTick_eq, State.timerUpdate_eq_periods]
  exact { hs with clock := hclock, phase := beq_self_eq_true s.pend }

/-- The start of a tick, at a time not below the last one, keeps the invariant: no more keys than fit, and the held mask
is stored in level mode only. -/
theorem State.Inv.beginTick {s : State} (hs : s.Inv) {t : Nat} (hle : s.now ≤ t) (keys : List Key) (kd : BitVec 16) :
    (s.beginTick t keys kd).Inv := by
  have hqueue := foldl_keyPush_length keys hs.params.2.1 hs.queue
  rw [State.beginTick_eq]
  exact { hs with
    queue := hqueue
    keyDown := fun hmode => by
      have hlevel : s.params.keyMode ≠ .level := fun h => nomatch h.symm.trans hmode
      exact (if_neg hlevel).trans (hs.keyDown hmode)
    clock := hs.clock.trans hle
    phase := decide_eq_true le_rfl }

/-- A direct write above the font leaves it. -/
theorem Mem.writeAll_font {m : Mem} (hs : m.sorted) (hfont : m.fontIntact) {offset : Nat} (h : fontSize ≤ offset)
    (bytes : List Byte) : (m.writeAll offset bytes).fontIntact := by
  intro a ha
  rw [Mem.read_writeAll bytes hs, dif_neg (by omega)]
  exact hfont a ha

/-- A load, at a time not below the last one, keeps the invariant. -/
theorem State.Inv.hostLoad {s u : State} (hs : s.Inv) {image : List Byte} {offset t : Nat} (hle : s.now ≤ t)
    (h : s.hostLoad image offset t = .next u) : u.Inv := by
  have hclock : s.tLast ≤ t := hs.clock.trans hle
  obtain ⟨hlow, hhigh, hfit, rfl⟩ | rfl := State.hostLoad_cases h
  · have hin : offset + image.length ≤ memSize := by
      simp only [memSize]
      omega
    exact { hs with
      memory := Mem.writeAll_wf image hs.memory hin
      font := Mem.writeAll_font hs.memory.1 hs.font hlow image
      rom := ⟨hlow, hin⟩
      clock := hclock }
  · exact State.Inv.raiseFault (s := { s with now := t }) { hs with clock := hclock } _ _

/-- A reset of an idle block keeps the invariant. -/
theorem State.Inv.hostReset {s : State} (hs : s.Inv) (hp : s.phase = .idle) (t : Nat) : (s.hostReset t).Inv :=
  { hs with
    memory := State.resetMem_wf hs.memory hs.rom
    font := State.resetMem_font hs.memory hs.rom
    queue := Nat.zero_le _
    keyDown := fun _ => rfl
    clock := le_rfl
    phase := by
      have hphase : (s.hostReset t).phase = .idle := hp
      rw [State.phaseOk, hphase]
      exact beq_self_eq_true Plane.blank }

/-- A host operation taken by an idle block keeps the invariant. -/
theorem State.Inv.hostStep {s t : State} (hs : s.Inv) (hp : s.phase = .idle) {op : HostOp}
    (h : s.hostStep op = .next t) : t.Inv := by
  obtain ⟨hle, ⟨image, offset, now, rfl, hload⟩ | ⟨now, rfl, rfl⟩ | ⟨now, keys, kd, rfl, rfl⟩⟩ := State.hostStep_next h
  · exact hs.hostLoad hle hload
  · exact hs.hostReset hp now
  · exact hs.beginTick hle keys kd

/-- Settles O58, by the four things a step of the machine can be. -/
theorem stepKeepsInv : Obligations.StepKeepsInv := by
  intro s t hs h
  obtain ⟨left, -, -, hstep⟩ | ⟨left, hp, -, hstep⟩ | ⟨-, -, hstep⟩ | ⟨op, rest, hp, -, hstep⟩ := step_cases s
  · rw [hstep] at h
    cases h
    exact hs.endTick
  · exact hs.batchStep hp (hstep ▸ h)
  · rw [hstep] at h
    cases h
    exact hs
  · have hs' : ({ s with inbox := rest } : State).Inv := { hs with }
    exact hs'.hostStep hp (hstep ▸ h)

end Sys2Proof.Machine
end
